-- ==== Sys2Proof/Word.lean ====
section
/-! DEFINITION. The word types of RMS-CORE (00_scope.md R11, R12; 30_encoding.md R71, R76). -/

namespace Sys2Proof

/-- A byte of a transport (20_memory.md R52). -/
abbrev Byte := BitVec 8

/-- One ring-buffer cell, and one squared sample: 32 bits unsigned (00_scope.md R11). -/
abbrev Cell := BitVec 32

/-- A sample: 16 bits, signed two's complement (00_scope.md R11, `SAMPLE_W`). -/
abbrev Sample := BitVec 16

/-- A 64-bit register: the running sum (unsigned) and the delay-line cells (signed), 00_scope.md R11. -/
abbrev Word64 := BitVec 64

/-- A command word, the one format `C128` (30_encoding.md R71, R73). -/
abbrev CommandWord := BitVec 128

/-- A response word (30_encoding.md R76). -/
abbrev ResponseWord := BitVec 72

end Sys2Proof
end

