-- ==== Sys2Proof/Syntax.lean ====
section
/-! DEFINITION. The commands of RMS-CORE: one constructor for each row of the opcode table (30_encoding.md R78), with the operands
of 30_encoding.md R75 at their encoded widths. -/

namespace Sys2Proof

/-- A command with its operands. -/
inductive Instr where
  /-- `ISQRT_WIDE x`, `x` 64 bits unsigned (40_isqrt.md R102). -/
  | isqrtWide (x : BitVec 64)
  /-- `ISQRT_NARROW x`, `x` 32 bits unsigned (40_isqrt.md R108). -/
  | isqrtNarrow (x : BitVec 32)
  /-- `RB_PUSH v`, `v` 32 bits unsigned (41_ring_buffer.md R125). -/
  | rbPush (v : Cell)
  /-- `RB_POP` (41_ring_buffer.md R128). -/
  | rbPop
  /-- `RB_PUSH_POP v`, `v` 32 bits unsigned (41_ring_buffer.md R131). -/
  | rbPushPop (v : Cell)
  /-- `RB_SET_SIZE n`, `n` 32 bits unsigned (41_ring_buffer.md R135). -/
  | rbSetSize (n : BitVec 32)
  /-- `RMS_BLOCK x, freq`, `x` 16 bits signed, `freq` 32 bits unsigned (42_block_rms.md R152). -/
  | rmsBlock (x : Sample) (freq : BitVec 32)
  /-- `RMS_EX x`, `x` 16 bits signed (43_iir_rms.md R180). -/
  | rmsEx (x : Sample)
  /-- `CLR_BLOCK` (44_control.md R201). -/
  | clrBlock
  /-- `CLR_EX` (44_control.md R202). -/
  | clrEx
  /-- `CLR_ALL` (44_control.md R203). -/
  | clrAll
  deriving DecidableEq, Repr

end Sys2Proof
end

