-- ==== Sys2Proof/WellFormed.lean ====
section
/-! DEFINITION. Well-formedness. A term of `Instr` holds its operands at the widths of 30_encoding.md R75, so every one of them is a command
the encoding admits. What can be ill formed is what an assembler is given (30_encoding.md R82): a mnemonic with integer operands, each of
which must lie in its range. -/

namespace Sys2Proof

/-- A line of assembly (30_encoding.md R82): a mnemonic and its operands as integers, not yet checked. -/
inductive AsmLine where
  | isqrtWide (x : Int)
  | isqrtNarrow (x : Int)
  | rbPush (v : Int)
  | rbPop
  | rbPushPop (v : Int)
  | rbSetSize (n : Int)
  | rmsBlock (x freq : Int)
  | rmsEx (x : Int)
  | clrBlock
  | clrEx
  | clrAll
  deriving DecidableEq, Repr

/-- `0 .. 2^bits - 1`. -/
def unsignedRange (bits : Nat) (v : Int) : Bool :=
  decide (0 ≤ v) && decide (v < 2 ^ bits)

/-- `-32768 .. 32767`, the range of a sample. -/
def sampleRange (v : Int) : Bool :=
  decide (-32768 ≤ v) && decide (v ≤ 32767)

/-- The ranges of 30_encoding.md R82: "An operand out of its range is an assembly error." -/
def AsmLine.wellFormed : AsmLine → Bool
  | .isqrtWide x => unsignedRange 64 x
  | .isqrtNarrow x => unsignedRange 32 x
  | .rbPush v => unsignedRange 32 v
  | .rbPop => true
  | .rbPushPop v => unsignedRange 32 v
  | .rbSetSize n => unsignedRange 32 n
  | .rmsBlock x freq => sampleRange x && unsignedRange 32 freq
  | .rmsEx x => sampleRange x
  | .clrBlock => true
  | .clrEx => true
  | .clrAll => true

/-- The line that names a command, operands as the integers 30_encoding.md R75 reads them as (samples signed, all else unsigned). -/
def Instr.toAsm : Instr → AsmLine
  | .isqrtWide x => .isqrtWide x.toNat
  | .isqrtNarrow x => .isqrtNarrow x.toNat
  | .rbPush v => .rbPush v.toNat
  | .rbPop => .rbPop
  | .rbPushPop v => .rbPushPop v.toNat
  | .rbSetSize n => .rbSetSize n.toNat
  | .rmsBlock x freq => .rmsBlock x.toInt freq.toNat
  | .rmsEx x => .rmsEx x.toInt
  | .clrBlock => .clrBlock
  | .clrEx => .clrEx
  | .clrAll => .clrAll

/-- A command is well formed when the line that names it is. Every command is: its operand types are the encoding's widths
(`Sys2Proof.Laws.instr_wellFormed`). -/
def Instr.wellFormed (i : Instr) : Bool := i.toAsm.wellFormed

end Sys2Proof
end

