-- ==== Sys2Proof/Decode.lean ====
section
/-! DEFINITION. The command word (30_encoding.md R71 to R85): decoding, total on every word and on every list of bytes; the encoder; the
assembler's placement of operands (R82) and its written form. -/

namespace Sys2Proof

/-- Why a word, or a list of bytes, selects no command. -/
inductive Reject where
  /-- `cmd[31:8]` is not zero (30_encoding.md R79). -/
  | reservedNotZero
  /-- `cmd[7:0]` is one of the 245 unassigned opcodes (30_encoding.md R79). -/
  | unassignedOpcode
  /-- The bytes are no whole command word: "a partial command word is not a command" (20_memory.md R53). -/
  | partialWord
  deriving DecidableEq, Repr

/-! ## The fields of `C128` (30_encoding.md R71) -/

/-- `A = cmd[127:64]`. -/
def fieldA (w : CommandWord) : BitVec 64 := w.extractLsb' 64 64

/-- `B = cmd[63:32]`. -/
def fieldB (w : CommandWord) : BitVec 32 := w.extractLsb' 32 32

/-- `RSVD = cmd[31:8]`. -/
def fieldRsvd (w : CommandWord) : BitVec 24 := w.extractLsb' 8 24

/-- `OPC = cmd[7:0]`. -/
def fieldOpc (w : CommandWord) : BitVec 8 := w.extractLsb' 0 8

/-- A command word from its four fields, `A` highest. -/
def commandWord (a : BitVec 64) (b : BitVec 32) (rsvd : BitVec 24) (opc : BitVec 8) : CommandWord :=
  (a.setWidth 128 <<< 64) ||| (b.setWidth 128 <<< 32) ||| (rsvd.setWidth 128 <<< 8) ||| opc.setWidth 128

/-! ## Decoding (30_encoding.md R84) -/

/-- The command an opcode of 30_encoding.md R78 selects, its operands assembled from `A` and `B` as R75 says; `none` for an
unassigned opcode. -/
def decodeOpcode (opc : BitVec 8) (a : BitVec 64) (b : BitVec 32) : Option Instr :=
  if opc = 0x01#8 then some (.isqrtWide a)
  else if opc = 0x02#8 then some (.isqrtNarrow (a.extractLsb' 0 32))
  else if opc = 0x10#8 then some (.rbPush (a.extractLsb' 0 32))
  else if opc = 0x11#8 then some .rbPop
  else if opc = 0x12#8 then some (.rbPushPop (a.extractLsb' 0 32))
  else if opc = 0x13#8 then some (.rbSetSize b)
  else if opc = 0x20#8 then some (.rmsBlock (a.extractLsb' 0 16) b)
  else if opc = 0x30#8 then some (.rmsEx (a.extractLsb' 0 16))
  else if opc = 0xF0#8 then some .clrBlock
  else if opc = 0xF1#8 then some .clrEx
  else if opc = 0xFF#8 then some .clrAll
  else none

/-- `decode(cmd)` of 30_encoding.md R84, total on every 128-bit word. -/
def decode (w : CommandWord) : Except Reject Instr :=
  if fieldRsvd w ≠ 0#24 then .error .reservedNotZero
  else
    match decodeOpcode (fieldOpc w) (fieldA w) (fieldB w) with
    | some i => .ok i
    | none => .error .unassignedOpcode

/-! ## Encoding (30_encoding.md R71, R75, R78, R82) -/

/-- The opcode of a command (30_encoding.md R78). -/
def opcode : Instr → BitVec 8
  | .isqrtWide _ => 0x01#8
  | .isqrtNarrow _ => 0x02#8
  | .rbPush _ => 0x10#8
  | .rbPop => 0x11#8
  | .rbPushPop _ => 0x12#8
  | .rbSetSize _ => 0x13#8
  | .rmsBlock _ _ => 0x20#8
  | .rmsEx _ => 0x30#8
  | .clrBlock => 0xF0#8
  | .clrEx => 0xF1#8
  | .clrAll => 0xFF#8

/-- The `A` field the assembler writes: the operand in its low bits, 0 in every bit 30_encoding.md R75 does not name (R82). -/
def operandA : Instr → BitVec 64
  | .isqrtWide x => x
  | .isqrtNarrow x => x.setWidth 64
  | .rbPush v => v.setWidth 64
  | .rbPop => 0#64
  | .rbPushPop v => v.setWidth 64
  | .rbSetSize _ => 0#64
  | .rmsBlock x _ => x.setWidth 64
  | .rmsEx x => x.setWidth 64
  | .clrBlock => 0#64
  | .clrEx => 0#64
  | .clrAll => 0#64

/-- The `B` field the assembler writes (30_encoding.md R75, R82). -/
def operandB : Instr → BitVec 32
  | .isqrtWide _ => 0#32
  | .isqrtNarrow _ => 0#32
  | .rbPush _ => 0#32
  | .rbPop => 0#32
  | .rbPushPop _ => 0#32
  | .rbSetSize n => n
  | .rmsBlock _ freq => freq
  | .rmsEx _ => 0#32
  | .clrBlock => 0#32
  | .clrEx => 0#32
  | .clrAll => 0#32

/-- The command word the assembler writes for a command. -/
def encode (i : Instr) : CommandWord :=
  commandWord (operandA i) (operandB i) 0#24 (opcode i)

/-- The operand mask of the low `n` bits of `A`. -/
def lowOnes (n : Nat) : BitVec 64 := (BitVec.allOnes n).setWidth 64

/-- The bits of a command word that a command's opcode makes the block read: `OPC`, `RSVD`, and the operand bits 30_encoding.md R75
names. Every other bit is ignored (R72). -/
def readBits (i : Instr) : CommandWord :=
  match i with
  | .isqrtWide _ => commandWord (BitVec.allOnes 64) 0#32 (BitVec.allOnes 24) (BitVec.allOnes 8)
  | .isqrtNarrow _ => commandWord (lowOnes 32) 0#32 (BitVec.allOnes 24) (BitVec.allOnes 8)
  | .rbPush _ => commandWord (lowOnes 32) 0#32 (BitVec.allOnes 24) (BitVec.allOnes 8)
  | .rbPop => commandWord 0#64 0#32 (BitVec.allOnes 24) (BitVec.allOnes 8)
  | .rbPushPop _ => commandWord (lowOnes 32) 0#32 (BitVec.allOnes 24) (BitVec.allOnes 8)
  | .rbSetSize _ => commandWord 0#64 (BitVec.allOnes 32) (BitVec.allOnes 24) (BitVec.allOnes 8)
  | .rmsBlock _ _ => commandWord (lowOnes 16) (BitVec.allOnes 32) (BitVec.allOnes 24) (BitVec.allOnes 8)
  | .rmsEx _ => commandWord (lowOnes 16) 0#32 (BitVec.allOnes 24) (BitVec.allOnes 8)
  | .clrBlock => commandWord 0#64 0#32 (BitVec.allOnes 24) (BitVec.allOnes 8)
  | .clrEx => commandWord 0#64 0#32 (BitVec.allOnes 24) (BitVec.allOnes 8)
  | .clrAll => commandWord 0#64 0#32 (BitVec.allOnes 24) (BitVec.allOnes 8)

/-! ## The assembler (30_encoding.md R82) -/

/-- The command a well-formed line stands for. A negative sample is its 16-bit two's-complement pattern. -/
def AsmLine.toInstr : AsmLine → Instr
  | .isqrtWide x => .isqrtWide (BitVec.ofInt 64 x)
  | .isqrtNarrow x => .isqrtNarrow (BitVec.ofInt 32 x)
  | .rbPush v => .rbPush (BitVec.ofInt 32 v)
  | .rbPop => .rbPop
  | .rbPushPop v => .rbPushPop (BitVec.ofInt 32 v)
  | .rbSetSize n => .rbSetSize (BitVec.ofInt 32 n)
  | .rmsBlock x freq => .rmsBlock (BitVec.ofInt 16 x) (BitVec.ofInt 32 freq)
  | .rmsEx x => .rmsEx (BitVec.ofInt 16 x)
  | .clrBlock => .clrBlock
  | .clrEx => .clrEx
  | .clrAll => .clrAll

/-- Assembling a line: its command word, or an assembly error (`none`) when an operand is out of its range. -/
def assemble (l : AsmLine) : Option CommandWord :=
  if l.wellFormed then some (encode l.toInstr) else none

/-! ## The written form of a line (30_encoding.md R82; what R82 leaves open is log 10) -/

/-- A blank between the words of a line: space or tab. -/
def isBlank (c : Char) : Bool := c == ' ' || c == '\t'

/-- Without the blanks at both ends. -/
def trimBlanks (cs : List Char) : List Char := ((cs.dropWhile isBlank).reverse.dropWhile isBlank).reverse

/-- The pieces between the occurrences of a separator. -/
def pieces (sep : Char) : List Char → List (List Char)
  | [] => [[]]
  | c :: cs =>
    if c == sep then [] :: pieces sep cs
    else match pieces sep cs with
      | [] => [[c]]
      | p :: ps => (c :: p) :: ps

/-- The value of a digit, upper or lower case, in a base up to 16. -/
def digitValue (base : Nat) (c : Char) : Option Nat :=
  let n := c.toNat
  let v := if 48 ≤ n ∧ n ≤ 57 then n - 48 else if 65 ≤ n ∧ n ≤ 70 then n - 55 else if 97 ≤ n ∧ n ≤ 102 then n - 87 else 16
  if v < base then some v else none

/-- A number from its digits, of which there is at least one. -/
def readDigits (base : Nat) (cs : List Char) : Option Nat :=
  if cs = [] then none
  else cs.foldl (fun acc c => acc.bind fun n => (digitValue base c).map fun d => base * n + d) (some 0)

/-- "Numbers are decimal, or hexadecimal with `0x`." -/
def readNat : List Char → Option Nat
  | '0' :: 'x' :: cs => readDigits 16 cs
  | cs => readDigits 10 cs

/-- An operand; a minus sign stands before the number. -/
def readInt : List Char → Option Int
  | '-' :: cs => (readNat cs).map fun n => -(n : Int)
  | cs => (readNat cs).map fun n => (n : Int)

/-- All of a list's elements, if every one is there. -/
def allOf {α : Type} : List (Option α) → Option (List α)
  | [] => some []
  | none :: _ => none
  | some x :: xs => (allOf xs).map (x :: ·)

/-- The lines of 30_encoding.md R82: each mnemonic with its number of operands. -/
def asmLine (mnemonic : List Char) (operands : List Int) : Option AsmLine :=
  match operands with
  | [] =>
    if mnemonic = "RB_POP".toList then some .rbPop
    else if mnemonic = "CLR_BLOCK".toList then some .clrBlock
    else if mnemonic = "CLR_EX".toList then some .clrEx
    else if mnemonic = "CLR_ALL".toList then some .clrAll
    else none
  | [x] =>
    if mnemonic = "ISQRT_WIDE".toList then some (.isqrtWide x)
    else if mnemonic = "ISQRT_NARROW".toList then some (.isqrtNarrow x)
    else if mnemonic = "RB_PUSH".toList then some (.rbPush x)
    else if mnemonic = "RB_PUSH_POP".toList then some (.rbPushPop x)
    else if mnemonic = "RB_SET_SIZE".toList then some (.rbSetSize x)
    else if mnemonic = "RMS_EX".toList then some (.rmsEx x)
    else none
  | [x, freq] => if mnemonic = "RMS_BLOCK".toList then some (.rmsBlock x freq) else none
  | _ => none

/-- The characters of a line that are not its comment ("`;` starts a comment"), blanks at the ends removed. -/
def lineBody (cs : List Char) : List Char := trimBlanks (cs.takeWhile fun c => c != ';')

/-- Reading one line: "One command per line". -/
def readLine (cs : List Char) : Option AsmLine :=
  let body := lineBody cs
  let mnemonic := body.takeWhile fun c => !isBlank c
  let rest := trimBlanks (body.drop mnemonic.length)
  let operands := if rest = [] then some [] else allOf ((pieces ',' rest).map fun p => readInt (trimBlanks p))
  operands.bind (asmLine mnemonic)

/-- Assembling a text: the command words of its lines in order, lines with nothing but a comment left out; `none` for an
assembly error in any line. -/
def assembleText (cs : List Char) : Option (List CommandWord) :=
  allOf (((pieces '\n' cs).filter fun l => decide (lineBody l ≠ [])).map fun l => (readLine l).bind assemble)

/-! ## A word on a byte-wide or 32-bit transport (20_memory.md R52, R53) -/

/-- The little-endian bytes of a word: byte `k` is bits `[8k+7 : 8k]`. -/
def bytesOf (w : BitVec n) : (count : Nat) → List Byte
  | 0 => []
  | count + 1 => w.extractLsb' 0 8 :: bytesOf (w >>> 8) count

/-- The number whose little-endian bytes are these. -/
def numberOfBytes : List Byte → Nat
  | [] => 0
  | b :: bs => b.toNat + 256 * numberOfBytes bs

/-- The sixteen bytes of a command word, lowest first. -/
def commandBytes (w : CommandWord) : List Byte := bytesOf w 16

/-- The command word that sixteen bytes carry; fewer or more are no command word. -/
def commandOfBytes (bs : List Byte) : Option CommandWord :=
  if bs.length = 16 then some (BitVec.ofNat 128 (numberOfBytes bs)) else none

/-- Decoding what a byte-wide transport carried, total on every list of bytes. -/
def decodeBytes (bs : List Byte) : Except Reject Instr :=
  match commandOfBytes bs with
  | some w => decode w
  | none => .error .partialWord

/-- The four words of a command word on a 32-bit transport, lowest first: word `j` is bits `[32j+31 : 32j]`. -/
def commandWords (w : CommandWord) : List (BitVec 32) :=
  [w.extractLsb' 0 32, w.extractLsb' 32 32, w.extractLsb' 64 32, w.extractLsb' 96 32]

/-- The command word that four 32-bit words carry; fewer or more are no command word. -/
def commandOfWords : List (BitVec 32) → Option CommandWord
  | [w0, w1, w2, w3] =>
    some ((w3.setWidth 128 <<< 96) ||| (w2.setWidth 128 <<< 64) ||| (w1.setWidth 128 <<< 32) ||| w0.setWidth 128)
  | _ => none

/-! ## The host's readings of the opcode table -/

/-- The command word whose low `nbits` bits are those of `w` and whose other bits are 0. -/
def tableWord (nbits w : Nat) : CommandWord := BitVec.ofNat 128 (w % 2 ^ nbits)

/-- The instruction the decoder reads from the word whose low `nbits` bits are those of `w`, laid out as the bytes a
transport carries. -/
def decodeTableWord (nbits w : Nat) : Option Instr :=
  (decodeBytes (commandBytes (tableWord nbits w))).toOption

end Sys2Proof
end

