-- ==== Sys2Proof/Config.lean ====
section
/-! DEFINITION. The build parameters of RMS-CORE (00_scope.md R9, 10_state.md R21): fixed for the life of a block, no command
changes them. The parameters `LATENCY`, `RESET_CYCLES` and `PLATFORM_PORT_MAP` are read by no rule and are left out (log 6). The one
free value is `Config.responsePad`, at the end. -/

namespace Sys2Proof

/-- The parameters of 00_scope.md R9 that a block is built with. -/
structure Config where
  /-- `SAMPLE_RATE`, Hz (OPEN). -/
  sampleRate : Nat
  /-- `MIN_FREQ`, Hz (OPEN; read by no command, D8). -/
  minFreq : Nat
  /-- `MAX_FREQ`, Hz (OPEN; read by no rule, D8). `none` where the deployment gives none: the spec names no value, not even
  for its reference configuration (91_not_in_source.md N5; log 2). -/
  maxFreq : Option Nat
  /-- `CAPACITY`, the `C` of the ring buffer (OPEN, D7). -/
  capacity : Nat
  /-- `SAMPLE_W`, the sample width in bits. The spec takes the value 16 (D2), at which 30_encoding.md R75 and the type `Sample` fix it;
  a block with another value is no legal RMS-CORE (`configLegal`; log 14). -/
  sampleW : Nat
  /-- `SHIFT`, the binary point of the coefficients (D11). -/
  shift : Nat
  /-- `COEF_A`, the feedback coefficient `a` (D12). -/
  coefA : Int
  /-- `COEF_B0`, the feed-forward coefficient `b0` (D12). -/
  coefB0 : Int
  /-- `COEF_B1`, the feed-forward coefficient `b1` (D12). -/
  coefB1 : Int
  deriving DecidableEq, Repr

/-- The reference configuration of D19 with the default `SHIFT` and coefficients of D11, D12. It is an example
configuration of the spec, not a fixed one of the hardware (DESIGN CHOICE, log 1: State.reset needs one). -/
def Config.reference : Config where
  sampleRate := 1500
  minFreq := 30
  maxFreq := none
  capacity := 51
  sampleW := 16
  shift := 15
  coefA := -32342
  coefB0 := 213
  coefB1 := 213

/-- The identity value `RMSCORE_SPEC_VERSION` of 00_scope.md R2; no command reads it (D1). -/
def Config.specVersion : Nat := 1

/-- What a 32-bit transport carries above the last bit of a response word, in bits 31 to 8 of its third word: 20_memory.md R52 cuts the 72
bits into 32-bit words and does not say (a free value, log 15). -/
opaque Config.responsePad : ResponseWord → BitVec 24

end Sys2Proof
end

