-- ==== Sys2Proof/Machine/State.lean ====
section
/-! DEFINITION. The state of RMS-CORE as plain data (10_state.md R20; the ports of 30_encoding.md R70), what can stop a step, and the state
after reset (10_state.md R34). -/

namespace Sys2Proof.Machine

/-- The ring-buffer storage: (cell index, value) pairs, indices strictly rising, no value 0; an unlisted cell reads 0, its
reset value (10_state.md R34). The smallest addressable unit is a 32-bit cell (20_memory.md R52; log 4). -/
abbrev Memory := List (Nat × Cell)

/-- The first of the two independent groups of 10_state.md R33, RB+BLK. -/
structure RingBlk where
  /-- `S.store[0..C]` (10_state.md R26). -/
  store : Memory
  /-- `S.head`, the index of the oldest element (10_state.md R27). -/
  head : Nat
  /-- `S.tail`, the index the next push writes (10_state.md R27). -/
  tail : Nat
  /-- `S.N`, the active window length (10_state.md R28). -/
  N : Nat
  /-- `S.val`, the running sum of squares, unsigned, wraps modulo 2^64 (10_state.md R30). -/
  val : Word64
  deriving DecidableEq, Repr

/-- The second group of 10_state.md R33, the IIR delay line: 64-bit signed cells (10_state.md R31). -/
structure IirLine where
  /-- `S.dx1` -/
  dx1 : Word64
  /-- `S.dy1` -/
  dy1 : Word64
  /-- `S.dx2` -/
  dx2 : Word64
  /-- `S.dy2` -/
  dy2 : Word64
  deriving DecidableEq, Repr

/-- The status of a response (30_encoding.md R77). The code 3 is never returned, so it has no constructor. -/
inductive Status where
  /-- The command was performed. -/
  | ok
  /-- The command word selects no command; nothing was performed (60_exceptions.md R222). -/
  | illegal
  /-- A window-size precondition failed; nothing was performed (60_exceptions.md R223). -/
  | size
  deriving DecidableEq, Repr

/-- A response: status and 64-bit result (30_encoding.md R76). Its word is `Response.word`. -/
structure Response where
  status : Status
  res : Word64
  deriving DecidableEq, Repr

/-- What the host drives on the input ports at one rising edge of `clk` (30_encoding.md R70). -/
structure PortIn where
  /-- `rst` -/
  rst : Bool
  /-- `cmd_valid` with `cmd_data`: `none` when `cmd_valid` is 0. -/
  cmd : Option CommandWord
  /-- `rsp_ready` -/
  rspReady : Bool
  deriving DecidableEq, Repr

/-- The ports: what the host will do, and the outstanding response. -/
structure Port where
  /-- The host's coming port actions, the next first, one entry for each edge on which a transfer or a reset can happen (log 3). -/
  inputs : List PortIn
  /-- The response on `rsp_data`, from the acceptance of its command until its delivery (30_encoding.md R70). -/
  rsp : Option Response
  /-- The responses delivered so far, oldest first (20_memory.md R55): the model's own record of what the host received. -/
  delivered : List Response
  deriving DecidableEq, Repr

/-- What the observer of 60_exceptions.md R226 records of a command stream. -/
inductive Violation where
  /-- A response with status `ILLEGAL` (93_implementation_defined.md U18). -/
  | illegal
  /-- A response with status `SIZE` (93_implementation_defined.md U2 to U4). -/
  | size
  /-- A pop, explicit or by eviction, beyond the pushes since the last clear (93_implementation_defined.md U1). -/
  | popEmpty
  deriving DecidableEq, Repr

/-- The observer of 60_exceptions.md R226: "the fault record belongs to the model's observation, not to the hardware" (log 7). -/
structure Observer where
  /-- The violations so far, oldest first; no step removes one. -/
  record : List Violation
  /-- Pushes since the last clear or reset (90_conflicts.md C10: the count is the contract). -/
  pushes : Nat
  /-- Pops, explicit or by eviction, since the last clear or reset. -/
  pops : Nat
  deriving DecidableEq, Repr

/-- The state a step works on. `ring` and `iir` are the architectural state of 10_state.md R20; `cfg` is the configuration, which is
no state of the block (10_state.md R21) and which no step writes: it stands here because the host's interface gives `step` no argument
for it (log 1). -/
structure State where
  cfg : Config
  ring : RingBlk
  iir : IirLine
  port : Port
  obs : Observer
  deriving DecidableEq, Repr

/-- Why a step stops. -/
inductive Fault where
  /-- A ring-buffer access at cell index `i`, which is above `C`: the cell does not exist (20_memory.md R51). Raised by `memRead` and
  `memWrite`. Safe: no state of the invariant `State.Inv` reaches it, as R51 says of such a fault (log 5). -/
  | storageIndex (i : Nat)
  deriving DecidableEq, Repr

/-- Why there is no step. -/
inductive Refusal where
  /-- The instruction has no meaning in this model yet. Raised by an arm of `exec` only. Safe. -/
  | notModelled (mnemonic : String)
  /-- The configuration violates the constraints of 00_scope.md R9, which a model refuses (D13, U12). Raised by `step`. Safe: such a
  block is no legal RMS-CORE. -/
  | illegalConfiguration
  deriving DecidableEq, Repr

/-- The reset values of the RB+BLK group for capacity `c` (10_state.md R34). -/
def RingBlk.reset (c : Nat) : RingBlk where
  store := []
  head := 0
  tail := 0
  N := c
  val := 0#64

/-- The reset values of the delay line (10_state.md R34). -/
def IirLine.reset : IirLine where
  dx1 := 0#64
  dy1 := 0#64
  dx2 := 0#64
  dy2 := 0#64

/-- The state right after reset of a block built with `cfg` (70_reset_and_hazards.md R250, R253): no command outstanding, the host
has done nothing yet and the observer has recorded nothing. -/
def State.resetWith (cfg : Config) : State where
  cfg := cfg
  ring := RingBlk.reset cfg.capacity
  iir := IirLine.reset
  port := { inputs := [], rsp := none, delivered := [] }
  obs := { record := [], pushes := 0, pops := 0 }

/-- The state right after reset of the block of the reference configuration (D19; log 1). -/
def State.reset : State := State.resetWith Config.reference

end Sys2Proof.Machine
end

