-- ==== Sys2Proof/Machine/Flags.lean ====
section
/-! DEFINITION. RMS-CORE has no flags, condition codes or sticky bits (10_state.md R24): the outcome of a command is its response status
alone. This file gives the status codes and the response word (30_encoding.md R76, R77). -/

namespace Sys2Proof.Machine

/-- The code of a status (30_encoding.md R77). -/
def Status.code : Status → BitVec 2
  | .ok => 0
  | .illegal => 1
  | .size => 2

/-- The response word `{6'b0, status, res}` (30_encoding.md R76). -/
def Response.word (r : Response) : ResponseWord :=
  (r.status.code.setWidth 72 <<< 64) ||| r.res.setWidth 72

/-- What the observer of 60_exceptions.md R226 records for a response with this status. -/
def Status.violation : Status → List Violation
  | .ok => []
  | .illegal => [.illegal]
  | .size => [.size]

end Sys2Proof.Machine
end

