-- ==== Sys2Proof/Machine/Memory.lean ====
section
/-! DEFINITION. Reading and writing the ring-buffer storage as a list in canonical form (20_memory.md R50, R51). -/

namespace Sys2Proof.Machine

/-- The value of cell `i`; an unlisted cell reads 0 (10_state.md R34). -/
def Memory.read (m : Memory) (i : Nat) : Cell :=
  match m with
  | [] => 0#32
  | (k, u) :: rest => if k = i then u else Memory.read rest i

/-- Writing cell `i`. Writing 0 removes the entry, so that the form stays canonical. -/
def Memory.write (m : Memory) (i : Nat) (v : Cell) : Memory :=
  match m with
  | [] => if v = 0#32 then [] else [(i, v)]
  | (k, u) :: rest =>
    if i < k then (if v = 0#32 then (k, u) :: rest else (i, v) :: (k, u) :: rest)
    else if i = k then (if v = 0#32 then rest else (i, v) :: rest)
    else (k, u) :: Memory.write rest i v

/-- The canonical form: indices strictly rising, no entry equal to what an unlisted cell reads as. -/
abbrev Memory.wf (m : Memory) : Prop :=
  m.Pairwise (fun p q => p.1 < q.1) ∧ ∀ p ∈ m, p.2 ≠ 0#32

/-- Every listed cell is one of the cells `0 .. c`. -/
abbrev Memory.within (m : Memory) (c : Nat) : Prop := ∀ p ∈ m, p.1 ≤ c

/-- The writes `for i from 0 to c: MemWrite(i, 4, 0)` of 44_control.md R201, last cell last. -/
def Memory.zeroUpTo (m : Memory) : (c : Nat) → Memory
  | 0 => m.write 0 0#32
  | c + 1 => (m.zeroUpTo c).write (c + 1) 0#32

end Sys2Proof.Machine
end

