-- ==== Sys2Proof/Machine/Operands.lean ====
section
/-! DEFINITION. The arithmetic of 00_scope.md R13 and the values commands compute from their operands and the configuration. The operand
fields themselves are assembled by `Sys2Proof.decodeOpcode` (30_encoding.md R75). -/

namespace Sys2Proof.Machine

/-- `s64(v)`: the 64-bit signed value congruent to `v` modulo 2^64 (00_scope.md R13). -/
def s64 (v : Int) : Word64 := BitVec.ofInt 64 v

/-- `asr(v, n) = floor(v / 2^n)` (00_scope.md R13, 43_iir_rms.md R173). -/
def asr (v : Int) (n : Nat) : Int := v / 2 ^ n

/-- `sat32u(v)` (00_scope.md R13, 43_iir_rms.md R181). -/
def sat32u (v : Int) : BitVec 32 :=
  if v < 0 then 0#32
  else if v > 2 ^ 32 - 1 then BitVec.allOnes 32
  else BitVec.ofInt 32 v

/-- The squared sample as the 32-bit unsigned value pushed into the ring buffer (42_block_rms.md R154). -/
def squareCell (x : Sample) : Cell := BitVec.ofInt 32 (x.toInt * x.toInt)

/-- The squared sample as the 64-bit signed filter input `z0` (43_iir_rms.md R180). -/
def squareWide (x : Sample) : Word64 := s64 (x.toInt * x.toInt)

/-- The window length of one `RMS_BLOCK` call, `(SAMPLE_RATE * 10) / freq`, truncated and computed exactly (42_block_rms.md R151).
Used for `freq ≥ 1` only. -/
def windowSize (cfg : Config) (freq : BitVec 32) : Nat := cfg.sampleRate * 10 / freq.toNat

/-- The constraints a model checks on the configuration (00_scope.md R9, D13), and the one value of `SAMPLE_W` (R9, D2; log 14). -/
def configLegal (cfg : Config) : Bool :=
  decide (1 ≤ cfg.sampleRate)
    && (decide (1 ≤ cfg.capacity) && decide (cfg.capacity ≤ 2 ^ 24))
    && decide (cfg.sampleW = 16)
    && (decide (1 ≤ cfg.shift) && decide (cfg.shift ≤ 30))
    && (decide (-2 ^ 15 ≤ cfg.coefA) && decide (cfg.coefA ≤ 2 ^ 15 - 1))
    && (decide (-2 ^ 15 ≤ cfg.coefB0) && decide (cfg.coefB0 ≤ 2 ^ 15 - 1))
    && (decide (-2 ^ 15 ≤ cfg.coefB1) && decide (cfg.coefB1 ≤ 2 ^ 15 - 1))

end Sys2Proof.Machine
end

