-- ==== Sys2Proof/Machine/Ops.lean ====
section
/-! DEFINITION. The named operations every meaning is built of: writing one state element, storage access, the ring-buffer steps,
responding, the error response (RMS-CORE's whole exception mechanism, 60_exceptions.md R220) and reset. -/

namespace Sys2Proof.Machine

/-! ## Writing one element -/

/-- `S.store <- m` -/
def State.setStore (s : State) (m : Memory) : State := { s with ring := { s.ring with store := m } }

/-- `S.head <- i` -/
def State.setHead (s : State) (i : Nat) : State := { s with ring := { s.ring with head := i } }

/-- `S.tail <- i` -/
def State.setTail (s : State) (i : Nat) : State := { s with ring := { s.ring with tail := i } }

/-- `S.N <- n` -/
def State.setN (s : State) (n : Nat) : State := { s with ring := { s.ring with N := n } }

/-- `S.val <- v` -/
def State.setVal (s : State) (v : Word64) : State := { s with ring := { s.ring with val := v } }

/-- `S.dx1 <- dx ; S.dy1 <- dy` -/
def State.setStage1 (s : State) (dx dy : Word64) : State := { s with iir := { s.iir with dx1 := dx, dy1 := dy } }

/-- `S.dx2 <- dx ; S.dy2 <- dy` -/
def State.setStage2 (s : State) (dx dy : Word64) : State := { s with iir := { s.iir with dx2 := dx, dy2 := dy } }

/-- Puts a response on the response port, or takes it off. -/
def State.setRsp (s : State) (r : Option Response) : State := { s with port := { s.port with rsp := r } }

/-- Appends to the observer's record. -/
def State.addRecord (s : State) (v : List Violation) : State :=
  { s with obs := { s.obs with record := s.obs.record ++ v } }

/-- The observer counts a push (log 7). -/
def State.countPush (s : State) : State := { s with obs := { s.obs with pushes := s.obs.pushes + 1 } }

/-- The observer counts a pop, and records one beyond the pushes since the last clear (90_conflicts.md C10, U1; log 7). -/
def State.countPop (s : State) : State :=
  { s with obs :=
      { s.obs with
        record := s.obs.record ++ (if s.obs.pops < s.obs.pushes then [] else [.popEmpty])
        pops := s.obs.pops + 1 } }

/-- Every element of the RB+BLK group at its reset value (44_control.md R201, 10_state.md R34), the observer's counts of pushes and
pops started again. -/
def State.clearRing (s : State) : State :=
  { s with ring := RingBlk.reset s.cfg.capacity, obs := { s.obs with pushes := 0, pops := 0 } }

/-- Every cell of the delay line at its reset value (44_control.md R202, 10_state.md R34). -/
def State.clearIir (s : State) : State := { s with iir := IirLine.reset }

/-! ## Storage access (20_memory.md R51) -/

/-- `MemRead(i, 4)`; there is no cell above `C`. -/
def memRead (i : Nat) (s : State) : Except Fault Cell :=
  if i ≤ s.cfg.capacity then .ok (s.ring.store.read i) else .error (.storageIndex i)

/-- `MemWrite(i, 4, v)`; there is no cell above `C`. -/
def memWrite (i : Nat) (v : Cell) (s : State) : Except Fault State :=
  if i ≤ s.cfg.capacity then .ok (s.setStore (s.ring.store.write i v)) else .error (.storageIndex i)

/-! ## The ring buffer (41_ring_buffer.md R121 to R124) -/

/-- `adv(i)`, the index successor for active window length `n` (41_ring_buffer.md R121). -/
def adv (n i : Nat) : Nat := if i + 1 > n then 0 else i + 1

/-- The internal step `push(v)` (41_ring_buffer.md R122). -/
def push (v : Cell) (s : State) : Except Fault State := do
  let s ← memWrite s.ring.tail v s
  return (s.setTail (adv s.ring.N s.ring.tail)).countPush

/-- The internal step `pop()` (41_ring_buffer.md R123): no emptiness check (R129). -/
def pop (s : State) : Except Fault (Cell × State) := do
  let v ← memRead s.ring.head s
  return (v, (s.setHead (adv s.ring.N s.ring.head)).countPop)

/-- The internal step `push_pop(v)` (41_ring_buffer.md R124), each statement seeing the writes of those before it (D40). -/
def pushPop (v : Cell) (s : State) : Except Fault (Cell × State) := do
  let s ← push v s
  if s.ring.tail = s.ring.head then pop s else return (0#32, s)

/-! ## Responding (00_scope.md R14, 30_encoding.md R76; 60_exceptions.md R220 to R226) -/

/-- `respond(status, res)`: the response the command ends with; the observer records a status other than `OK` (60_exceptions.md
R226), here, when the command is performed and not when its response is delivered (the model's choice, log 16). -/
def respond (status : Status) (res : Word64) (s : State) : State :=
  (s.setRsp (some { status := status, res := res })).addRecord status.violation

/-- The error response, RMS-CORE's only reaction to a failure (60_exceptions.md R220, R222, R223): `RES = 0` (30_encoding.md R77) and
no state element changed. There is no saved state and nothing to return from (R225). -/
def raiseError (status : Status) (s : State) : State := respond status 0#64 s

/-- A command that may reach a cell that does not exist, as a step's outcome. -/
def complete (r : Except Fault State) : Host.Outcome State Fault Refusal :=
  match r with
  | .ok s => .next s
  | .error f => .fault f

/-! ## The ports (30_encoding.md R70, 70_reset_and_hazards.md R250, R251) -/

/-- `cmd_ready` on an edge: not in reset, and no command outstanding. -/
def cmdReady (e : PortIn) (s : State) : Bool := !e.rst && s.port.rsp.isNone

/-- `rsp_valid` on an edge: not in reset, and a response is outstanding. -/
def rspValid (e : PortIn) (s : State) : Bool := !e.rst && s.port.rsp.isSome

/-- `rsp_data`, while a response is outstanding. -/
def rspData (s : State) : Option ResponseWord := s.port.rsp.map Response.word

/-- The delivery of the outstanding response. -/
def deliver (s : State) : State :=
  { s with port := { s.port with rsp := none, delivered := s.port.delivered ++ s.port.rsp.toList } }

/-- Reset: every state element at its reset value, an outstanding command abandoned with no response (70_reset_and_hazards.md R250,
R251), the parameters kept (R252). What the host did and will do, and the observer's record, are not the block's: the record keeps the
violation of a response that the reset abandons (the model's choice, log 16). -/
def resetBlock (s : State) : State := (s.clearRing.clearIir).setRsp none

/-! ## What is buffered (10_state.md R29) -/

/-- The occupancy `(tail - head) mod (N + 1)`, meant for `head ≤ N` and `tail ≤ N`. -/
def occupancy (r : RingBlk) : Nat := (r.tail + (r.N + 1) - r.head) % (r.N + 1)

/-- The `k` cells from index `i` on, in `adv` order. -/
def cellsFrom (m : Memory) (n i : Nat) : (k : Nat) → List Cell
  | 0 => []
  | k + 1 => m.read i :: cellsFrom m n (adv n i) k

/-- The buffered cells, from `S.head` up to but not including `S.tail` in `adv` order: the oldest first. -/
def buffered (r : RingBlk) : List Cell := cellsFrom r.store r.N r.head (occupancy r)

end Sys2Proof.Machine
end

