-- ==== Sys2Proof/Machine/Isqrt.lean ====
section
/-! DEFINITION. The integer square-root units and their commands (40_isqrt.md). -/

namespace Sys2Proof.Machine

/-- The binary search of 40_isqrt.md R100 for the bits below `b`, most significant first, from the partial result `r`. -/
def isqrtSearch (x : Nat) : (b r : Nat) → Nat
  | 0, r => r
  | b + 1, r =>
    let c := r ||| (1 <<< b)
    if c * c ≤ x then isqrtSearch x b c else isqrtSearch x b r

/-- `isqrt_wide(x)`: 64-bit unsigned in, 32-bit unsigned out (40_isqrt.md R100). -/
def isqrtWide (x : BitVec 64) : BitVec 32 := BitVec.ofNat 32 (isqrtSearch x.toNat 32 0)

/-- The digit recurrence of 40_isqrt.md R106 for the digits below `i`, from the remainder `op` and the partial root `res`. -/
def isqrtDigits : (i op res : Nat) → Nat
  | 0, _, res => res
  | i + 1, op, res =>
    let one := 1 <<< (2 * i)
    if op ≥ res + one then isqrtDigits i (op - (res + one)) ((res >>> 1) + one)
    else isqrtDigits i op (res >>> 1)

/-- `isqrt_narrow(x)`: 32-bit unsigned in, 16-bit unsigned out (40_isqrt.md R105, by the algorithm of R106). -/
def isqrtNarrow (x : BitVec 32) : BitVec 16 := BitVec.ofNat 16 (isqrtDigits 16 x.toNat 0)

/-- `ISQRT_WIDE` (40_isqrt.md R102). -/
def execIsqrtWide (x : BitVec 64) (s : State) : Host.Outcome State Fault Refusal :=
  .next (respond .ok ((isqrtWide x).setWidth 64) s)

/-- `ISQRT_NARROW` (40_isqrt.md R108). -/
def execIsqrtNarrow (x : BitVec 32) (s : State) : Host.Outcome State Fault Refusal :=
  .next (respond .ok ((isqrtNarrow x).setWidth 64) s)

end Sys2Proof.Machine
end

