-- ==== Sys2Proof/Machine/RingBuffer.lean ====
section
/-! DEFINITION. The ring-buffer commands (41_ring_buffer.md R125 to R135). -/

namespace Sys2Proof.Machine

/-- `RB_PUSH` (41_ring_buffer.md R125). -/
def execRbPush (v : Cell) (s : State) : Host.Outcome State Fault Refusal :=
  complete do
    let s ← push v s
    return respond .ok 0#64 s

/-- `RB_POP` (41_ring_buffer.md R128, R129). -/
def execRbPop (s : State) : Host.Outcome State Fault Refusal :=
  complete do
    let (v, s) ← pop s
    return respond .ok (v.setWidth 64) s

/-- `RB_PUSH_POP` (41_ring_buffer.md R131). -/
def execRbPushPop (v : Cell) (s : State) : Host.Outcome State Fault Refusal :=
  complete do
    let (e, s) ← pushPop v s
    return respond .ok (e.setWidth 64) s

/-- `RB_SET_SIZE` (41_ring_buffer.md R135): failure is `RES = 0` with status `OK` (D32), and `n = 0` fails too (D17). -/
def execRbSetSize (n : BitVec 32) (s : State) : Host.Outcome State Fault Refusal :=
  if n.toNat = 0 ∨ n.toNat > s.cfg.capacity then .next (respond .ok 0#64 s)
  else .next (respond .ok 1#64 (s.setN n.toNat))

end Sys2Proof.Machine
end

