-- ==== Sys2Proof/Machine/BlockRms.lean ====
section
/-! DEFINITION. The block RMS estimator (42_block_rms.md R150 to R154). -/

namespace Sys2Proof.Machine

/-- Step 3 of 42_block_rms.md R152 at window length `size`: add the square, push it and evict, subtract what was evicted. -/
def blockUpdate (sq : Cell) (s : State) : Except Fault State := do
  let s := s.setVal (s.ring.val + sq.setWidth 64)
  let (e, s) ← pushPop sq s
  return s.setVal (s.ring.val - e.setWidth 64)

/-- Step 4 of 42_block_rms.md R152: `isqrt_wide(S.val / size)`, unsigned division. -/
def blockResult (size : Nat) (s : State) : Word64 :=
  (isqrtWide (BitVec.ofNat 64 (s.ring.val.toNat / size))).setWidth 64

/-- `RMS_BLOCK` (42_block_rms.md R152; the `SIZE` cases of R153 come before every write). -/
def execRmsBlock (x : Sample) (freq : BitVec 32) (s : State) : Host.Outcome State Fault Refusal :=
  if freq = 0#32 then .next (raiseError .size s)
  else if windowSize s.cfg freq = 0 ∨ windowSize s.cfg freq > s.cfg.capacity then .next (raiseError .size s)
  else complete do
    let size := windowSize s.cfg freq
    let s ← blockUpdate (squareCell x) (s.setN size)
    return respond .ok (blockResult size s) s

end Sys2Proof.Machine
end

