-- ==== Sys2Proof/Machine/Control.lean ====
section
/-! DEFINITION. The clear commands (44_control.md R200 to R203). -/

namespace Sys2Proof.Machine

/-- `CLR_BLOCK` (44_control.md R201). -/
def execClrBlock (s : State) : Host.Outcome State Fault Refusal :=
  .next (respond .ok 0#64 s.clearRing)

/-- `CLR_EX` (44_control.md R202). -/
def execClrEx (s : State) : Host.Outcome State Fault Refusal :=
  .next (respond .ok 0#64 s.clearIir)

/-- `CLR_ALL` (44_control.md R203). -/
def execClrAll (s : State) : Host.Outcome State Fault Refusal :=
  .next (respond .ok 0#64 s.clearRing.clearIir)

end Sys2Proof.Machine
end

