-- ==== Sys2Proof/Machine/Iir.lean ====
section
/-! DEFINITION. The two-stage fixed-point IIR RMS estimator (43_iir_rms.md R170 to R181). -/

namespace Sys2Proof.Machine

/-- What one filter stage returns: its output and its new delay cells. -/
structure StageOut where
  y : Word64
  dx : Word64
  dy : Word64
  deriving DecidableEq, Repr

/-- A coefficient times a cell, reduced to 64 bits signed and shifted right by `SHIFT` (43_iir_rms.md R172, R173). -/
def scaled (cfg : Config) (coef : Int) (v : Word64) : Int := asr (s64 (coef * v.toInt)).toInt cfg.shift

/-- One filter stage, `stage(z, dx, dy)` (43_iir_rms.md R174): the shifts apply to the products alone (R175), and the feedback
reads `dy` as it was before the call (R176). -/
def stage (cfg : Config) (z dx dy : Word64) : StageOut :=
  let y := s64 (scaled cfg cfg.coefB0 z + dx.toInt)
  { y := y
    dx := s64 (scaled cfg cfg.coefB1 z - scaled cfg cfg.coefA dy)
    dy := y }

/-- `RMS_EX` (43_iir_rms.md R180; output mapping R181). -/
def execRmsEx (x : Sample) (s : State) : Host.Outcome State Fault Refusal :=
  let o1 := stage s.cfg (squareWide x) s.iir.dx1 s.iir.dy1
  let s1 := s.setStage1 o1.dx o1.dy
  let o2 := stage s1.cfg o1.y s1.iir.dx2 s1.iir.dy2
  let s2 := s1.setStage2 o2.dx o2.dy
  .next (respond .ok ((isqrtNarrow (sat32u o2.y.toInt)).setWidth 64) s2)

end Sys2Proof.Machine
end

