-- ==== Sys2Proof/Machine/Dispatch.lean ====
section
/-! DEFINITION. One arm per command: the meaning of each. -/

namespace Sys2Proof.Machine

def exec (i : Instr) (s : State) : Host.Outcome State Fault Refusal :=
  match i with
  -- 40_isqrt.md
  | .isqrtWide x => Sys2Proof.Machine.execIsqrtWide x s
  | .isqrtNarrow x => Sys2Proof.Machine.execIsqrtNarrow x s
  -- 41_ring_buffer.md
  | .rbPush v => Sys2Proof.Machine.execRbPush v s
  | .rbPop => Sys2Proof.Machine.execRbPop s
  | .rbPushPop v => Sys2Proof.Machine.execRbPushPop v s
  | .rbSetSize n => Sys2Proof.Machine.execRbSetSize n s
  -- 42_block_rms.md
  | .rmsBlock x freq => Sys2Proof.Machine.execRmsBlock x freq s
  -- 43_iir_rms.md
  | .rmsEx x => Sys2Proof.Machine.execRmsEx x s
  -- 44_control.md
  | .clrBlock => Sys2Proof.Machine.execClrBlock s
  | .clrEx => Sys2Proof.Machine.execClrEx s
  | .clrAll => Sys2Proof.Machine.execClrAll s

end Sys2Proof.Machine
end

