-- ==== Sys2Proof/Machine/Perform.lean ====
section
/-! DEFINITION. What one clock edge does at the ports (30_encoding.md R70, R85; 70_reset_and_hazards.md R250, R251). -/

namespace Sys2Proof.Machine

/-- The nine bytes of a response word on a byte-wide transport, lowest first (20_memory.md R52). -/
def Response.bytes (r : Response) : List Sys2Proof.Byte := Sys2Proof.bytesOf r.word 9

/-- The response word that nine bytes carry; fewer or more are no whole response word (20_memory.md R53). -/
def responseOfBytes (bs : List Sys2Proof.Byte) : Option Sys2Proof.ResponseWord :=
  if bs.length = 9 then some (BitVec.ofNat 72 (Sys2Proof.numberOfBytes bs)) else none

/-- The three words of a response word on a 32-bit transport, lowest first: word `j` is bits `[32j+31 : 32j]` (20_memory.md R52). The
response has no bits above 71; what the third word holds there is a free value (log 15). -/
def Response.words (r : Response) : List (BitVec 32) :=
  [r.word.extractLsb' 0 32, r.word.extractLsb' 32 32,
    ((Sys2Proof.Config.responsePad r.word).setWidth 32 <<< 8) ||| (r.word.extractLsb' 64 8).setWidth 32]

/-- The response word that three 32-bit words carry; fewer or more are no whole response word. -/
def responseOfWords : List (BitVec 32) → Option Sys2Proof.ResponseWord
  | [w0, w1, w2] => some (((w2.setWidth 8).setWidth 72 <<< 64) ||| (w1.setWidth 72 <<< 32) ||| w0.setWidth 72)
  | _ => none

/-- An accepted command word is decoded before it is performed; an illegal one is answered `ILLEGAL` and performed not at all
(60_exceptions.md R222, R224). -/
def perform (w : CommandWord) (s : State) : Host.Outcome State Fault Refusal :=
  match decode w with
  | .ok i => exec i s
  | .error _ => .next (raiseError .illegal s)

/-- One rising edge of `clk`: reset, or the delivery of the outstanding response, or the acceptance of a command, or nothing
(30_encoding.md R70). A command presented while one is outstanding is not accepted. -/
def clockEdge (e : PortIn) (s : State) : Host.Outcome State Fault Refusal :=
  if e.rst then .next (resetBlock s)
  else if rspValid e s && e.rspReady then .next (deliver s)
  else
    match e.cmd with
    | some w => if cmdReady e s then perform w s else .next s
    | none => .next s

/-- The next edge on which the host does something. With none to come the block holds its state (60_exceptions.md R235). -/
def nextEdge (s : State) : Host.Outcome State Fault Refusal :=
  match s.port.inputs with
  | [] => .next s
  | e :: rest => clockEdge e { s with port := { s.port with inputs := rest } }

/-- The port action of a host that presents a command word. -/
def present (w : CommandWord) : PortIn := { rst := false, cmd := some w, rspReady := false }

/-- The port action of a host that accepts the response. -/
def takeResponse : PortIn := { rst := false, cmd := none, rspReady := true }

/-- The port action of a host that asserts `rst`. -/
def assertReset : PortIn := { rst := true, cmd := none, rspReady := false }

/-- The state in which the host presents `w` on the next edge and the block can accept it: an outstanding response is delivered
first. -/
def presentNext (w : CommandWord) (s : State) : State :=
  let d := deliver s
  { d with port := { d.port with inputs := present w :: d.port.inputs } }

end Sys2Proof.Machine
end

