-- ==== Sys2Proof/Machine/Step.lean ====
section
/-! DEFINITION. The step of the machine. -/

namespace Sys2Proof.Machine

/-- One step: the next clock edge on which the host does something, of a block whose configuration is legal (00_scope.md R9: any other is
refused). -/
def step (s : State) : Host.Outcome State Fault Refusal :=
  if configLegal s.cfg then nextEdge s else .refused .illegalConfiguration

/-- `s` with the command word of the opcode table's bits presented on the next edge (log 8). -/
def State.withFetchWord (s : State) (nbits w : Nat) : State :=
  presentNext (Sys2Proof.tableWord nbits w) s

end Sys2Proof.Machine
end

