-- ==== Sys2Proof/Safety.lean ====
section
/-! DEFINITION. The terms claims are stated in: the invariant of every reachable state, command streams, and what a command leaves alone. -/

namespace Sys2Proof.Machine

/-! ## The invariant -/

/-- What holds of a block at all times: a legal configuration (00_scope.md R9), a storage in canonical form that lists existing
cells only (20_memory.md R50), `head`, `tail` in `[0, C]` (10_state.md R27) and `N` in `[1, C]` (10_state.md R28). -/
structure State.Inv (s : State) : Prop where
  legal : configLegal s.cfg = true
  store_wf : s.ring.store.wf
  store_within : s.ring.store.within s.cfg.capacity
  head_le : s.ring.head ≤ s.cfg.capacity
  tail_le : s.ring.tail ≤ s.cfg.capacity
  one_le_N : 1 ≤ s.ring.N
  N_le : s.ring.N ≤ s.cfg.capacity

/-- The default `SHIFT` and coefficients (00_scope.md R9, D11, D12). -/
abbrev defaultFilter (cfg : Config) : Prop :=
  cfg.shift = 15 ∧ cfg.coefA = -32342 ∧ cfg.coefB0 = 213 ∧ cfg.coefB1 = 213

/-- Delay-line cells in `[0, 2^30]` (43_iir_rms.md R184), the `dx` cells by the sharper bound `2^30 - 213 * 2^15` that makes the
range inductive. -/
abbrev iirInRange (l : IirLine) : Prop :=
  (0 ≤ l.dx1.toInt ∧ l.dx1.toInt ≤ 1066762240) ∧ (0 ≤ l.dy1.toInt ∧ l.dy1.toInt ≤ 2 ^ 30)
    ∧ (0 ≤ l.dx2.toInt ∧ l.dx2.toInt ≤ 1066762240) ∧ (0 ≤ l.dy2.toInt ∧ l.dy2.toInt ≤ 2 ^ 30)

/-! ## Command streams -/

/-- Commands performed one after another: the state they leave and their responses in order; `none` if one of them does not answer
a next state. -/
def commands : List Instr → State → Option (State × List Response)
  | [], s => some (s, [])
  | i :: is, s =>
    match exec i s with
    | .next t => (commands is t).map fun p => (p.1, t.port.rsp.toList ++ p.2)
    | _ => none

/-- The commands that do not touch the RB+BLK group: the square roots and those of the IIR group (10_state.md R33). -/
def leavesRing : Instr → Bool
  | .isqrtWide _ => true
  | .isqrtNarrow _ => true
  | .rbPush _ => false
  | .rbPop => false
  | .rbPushPop _ => false
  | .rbSetSize _ => false
  | .rmsBlock _ _ => false
  | .rmsEx _ => true
  | .clrBlock => false
  | .clrEx => true
  | .clrAll => false

/-- The conditions of 42_block_rms.md R156 on a stream: each command leaves the RB+BLK group alone, or is an `RMS_BLOCK` that computes the
window length `size`. -/
abbrev oneWindow (cfg : Config) (size : Nat) (is : List Instr) : Prop :=
  ∀ i ∈ is, leavesRing i = true ∨
    ∃ x freq, i = .rmsBlock x freq ∧ freq.toNat ≠ 0 ∧ cfg.sampleRate * 10 / freq.toNat = size

/-- The samples a stream gives to `RMS_BLOCK`, in order. -/
def blockSamples : List Instr → List Sample
  | [] => []
  | .rmsBlock x _ :: is => x :: blockSamples is
  | _ :: is => blockSamples is

/-- The command-level model of 30_encoding.md R85 over a stream of command words: each is performed on the state the one before left,
and its response is taken at once. -/
def serve : List CommandWord → State → Option (State × List Response)
  | [], s => some (s, [])
  | w :: ws, s =>
    match perform w s with
    | .next t => (serve ws (t.setRsp none)).map fun p => (p.1, t.port.rsp.toList ++ p.2)
    | _ => none

/-- The port actions of a host that presents each word and takes each response before it presents the next. -/
def exchange (ws : List CommandWord) : List PortIn := ws.flatMap fun w => [present w, takeResponse]

/-- The last `n` elements of a list (all of them if there are fewer). -/
def lastOf {α : Type} (n : Nat) (xs : List α) : List α := xs.drop (xs.length - n)

/-- The sum of the squares of samples, exact. -/
def sumSquares (xs : List Sample) : Nat := (xs.map fun x => (x.toInt * x.toInt).toNat).sum

/-! ## What a command leaves alone -/

/-- The parts that are not the block's to write: the configuration, what the host will do, and what was delivered to it. -/
abbrev sameHostSide (s t : State) : Prop :=
  t.cfg = s.cfg ∧ t.port.inputs = s.port.inputs ∧ t.port.delivered = s.port.delivered

/-- The response a command ended with. -/
abbrev answered (t : State) (status : Status) (res : Word64) : Prop :=
  t.port.rsp = some { status := status, res := res }

/-- The status of the response on the port, if there is one. -/
def rspStatus (t : State) : Option Status := t.port.rsp.map Response.status

/-- The two states agree on the configuration and on the architectural state of 10_state.md R20. -/
abbrev sameBlock (s t : State) : Prop := t.cfg = s.cfg ∧ t.ring = s.ring ∧ t.iir = s.iir

/-- The unassigned opcodes as 30_encoding.md R79 lists them. -/
abbrev unassigned (opc : Nat) : Prop :=
  opc = 0x00 ∨ (0x03 ≤ opc ∧ opc ≤ 0x0F) ∨ (0x14 ≤ opc ∧ opc ≤ 0x1F) ∨ (0x21 ≤ opc ∧ opc ≤ 0x2F)
    ∨ (0x31 ≤ opc ∧ opc ≤ 0xEF) ∨ (0xF2 ≤ opc ∧ opc ≤ 0xFE)

/-- `r` is the integer square root of `x`: the law of 40_isqrt.md R101. -/
abbrev isFloorSqrt (r x : Nat) : Prop := r * r ≤ x ∧ x < (r + 1) * (r + 1)

end Sys2Proof.Machine
end

