-- ==== Sys2Proof/Certificates/Slice0/Obligations.lean ====
section
/-! DEFINITION. The statements about RMS-CORE. Each docstring names the rules of spec/ it states or rests on. The terms (`State.Inv`,
`commands`, `lastOf`, `sameBlock`, `sameHostSide`, `answered`, `isFloorSqrt`, …) are those of Sys2Proof/Safety.lean. -/

open Sys2Proof Sys2Proof.Machine

/-! ## Encoding -/

/-- 30_encoding.md R71, R75, R78, R82: no operand bit is dropped. Every command is read back from the word the assembler writes for it,
and from the sixteen bytes that carry the word. -/
def Obligations.DecodeInvertsEncode : Prop :=
  ∀ i : Instr, decode (encode i) = .ok i ∧ decodeBytes (commandBytes (encode i)) = .ok i

/-- 30_encoding.md R75, R82: the other direction. The word the assembler writes for the command a word decodes to is that word with
its unread bits cleared. -/
def Obligations.EncodeKeepsEveryReadBit : Prop :=
  ∀ (w : CommandWord) (i : Instr), decode w = .ok i → encode i = w &&& readBits i

/-- 30_encoding.md R72: a bit the command does not read changes neither the command decoded nor anything it does. -/
def Obligations.UnreadBitsAreIgnored : Prop :=
  ∀ (w w' : CommandWord) (i : Instr), decode w = .ok i → w' &&& readBits i = w &&& readBits i →
    decode w' = .ok i ∧ ∀ s : State, perform w' s = perform w s

/-- 30_encoding.md R78, R84: decoding, from the bits of the word. -/
def Obligations.DecodeFollowsTheOpcodeMap : Prop :=
  ∀ w : CommandWord,
    (w.extractLsb' 8 24 ≠ 0#24 → ∃ r, decode w = .error r) ∧
    (w.extractLsb' 8 24 = 0#24 →
      (w.extractLsb' 0 8 = 0x01#8 → decode w = .ok (.isqrtWide (w.extractLsb' 64 64))) ∧
      (w.extractLsb' 0 8 = 0x02#8 → decode w = .ok (.isqrtNarrow (w.extractLsb' 64 32))) ∧
      (w.extractLsb' 0 8 = 0x10#8 → decode w = .ok (.rbPush (w.extractLsb' 64 32))) ∧
      (w.extractLsb' 0 8 = 0x11#8 → decode w = .ok .rbPop) ∧
      (w.extractLsb' 0 8 = 0x12#8 → decode w = .ok (.rbPushPop (w.extractLsb' 64 32))) ∧
      (w.extractLsb' 0 8 = 0x13#8 → decode w = .ok (.rbSetSize (w.extractLsb' 32 32))) ∧
      (w.extractLsb' 0 8 = 0x20#8 → decode w = .ok (.rmsBlock (w.extractLsb' 64 16) (w.extractLsb' 32 32))) ∧
      (w.extractLsb' 0 8 = 0x30#8 → decode w = .ok (.rmsEx (w.extractLsb' 64 16))) ∧
      (w.extractLsb' 0 8 = 0xF0#8 → decode w = .ok .clrBlock) ∧
      (w.extractLsb' 0 8 = 0xF1#8 → decode w = .ok .clrEx) ∧
      (w.extractLsb' 0 8 = 0xFF#8 → decode w = .ok .clrAll) ∧
      (unassigned (w.extractLsb' 0 8).toNat → ∃ r, decode w = .error r))

/-- 30_encoding.md R81: the eleven worked encodings, assembled and decoded back. -/
def Obligations.WorkedEncodingsAssembleAndDecode : Prop :=
  ∀ p ∈ ([(.isqrtWide 0xFFFFFFFFFFFFFFFF, 0xFFFFFFFFFFFFFFFF0000000000000001#128),
          (.isqrtNarrow 1000000, 0x00000000000F42400000000000000002#128),
          (.rbPush 7, 0x00000000000000070000000000000010#128),
          (.rbPop, 0x00000000000000000000000000000011#128),
          (.rbPushPop 9, 0x00000000000000090000000000000012#128),
          (.rbSetSize 3, 0x00000000000000000000000300000013#128),
          (.rmsBlock (-5) 5000, 0x000000000000FFFB0000138800000020#128),
          (.rmsEx 1000, 0x00000000000003E80000000000000030#128),
          (.clrBlock, 0x000000000000000000000000000000F0#128),
          (.clrEx, 0x000000000000000000000000000000F1#128),
          (.clrAll, 0x000000000000000000000000000000FF#128)] : List (AsmLine × CommandWord)),
    assemble p.1 = some p.2 ∧ decode p.2 = .ok p.1.toInstr

/-- 30_encoding.md R82: an operand outside its range is an assembly error; a line within its ranges assembles to a word that decodes
to the command the same line names, with 0 in every bit the command does not read. -/
def Obligations.AssembledLinesDecodeToThemselves : Prop :=
  (∀ l : AsmLine, l.wellFormed = false → assemble l = none) ∧
  ∀ l : AsmLine, l.wellFormed = true →
    ∃ w i, assemble l = some w ∧ decode w = .ok i ∧ i.toAsm = l ∧ w &&& readBits i = w

/-- 20_memory.md R52, R53: on a byte-wide transport byte `k` is bits `[8k+7 : 8k]`, on a 32-bit transport word `j` is bits
`[32j+31 : 32j]`; the sixteen bytes, or the four words, give the command word back, and any other number of them is no command. -/
def Obligations.TransportCarriesWholeWords : Prop :=
  (∀ w : CommandWord, commandOfBytes (commandBytes w) = some w ∧
    ∀ k < 16, (commandBytes w)[k]? = some (w.extractLsb' (8 * k) 8)) ∧
  (∀ bs : List Byte, bs.length ≠ 16 → commandOfBytes bs = none ∧ decodeBytes bs = .error .partialWord) ∧
  (∀ w : CommandWord, commandOfWords (commandWords w) = some w ∧
    ∀ j < 4, (commandWords w)[j]? = some (w.extractLsb' (32 * j) 32)) ∧
  ∀ ws : List (BitVec 32), ws.length ≠ 4 → commandOfWords ws = none

/-- 30_encoding.md R79, 60_exceptions.md R222: which words are illegal, that one changes no state and is answered `ILLEGAL` with `RES = 0`,
and that every other word decodes to a command and is not answered `ILLEGAL`. The all-zero word is illegal, and 245 opcodes are
unassigned. -/
def Obligations.IllegalWordsChangeNothing : Prop :=
  (∀ (w : CommandWord) (s : State), (w.extractLsb' 8 24 ≠ 0#24 ∨ unassigned (w.extractLsb' 0 8).toNat) →
    ∃ t, perform w s = .next t ∧ answered t .illegal 0#64 ∧ sameBlock s t ∧ sameHostSide s t) ∧
  (∀ w : CommandWord, ¬ (w.extractLsb' 8 24 ≠ 0#24 ∨ unassigned (w.extractLsb' 0 8).toNat) →
    (∃ i, decode w = .ok i) ∧
    ∀ s t : State, perform w s = .next t → ∃ r, t.port.rsp = some r ∧ r.status ≠ .illegal) ∧
  unassigned ((0#128 : CommandWord).extractLsb' 0 8).toNat ∧
  ((List.range 256).filter fun opc => decide (unassigned opc)).length = 245

/-! ## Ports, reset and the step -/

/-- 30_encoding.md R70, R85: on an edge that accepts a command the step is the meaning of the decoded command, on the state with that
edge consumed; a word that decodes to no command is answered by the error response. -/
def Obligations.StepRunsTheDecodedCommand : Prop :=
  ∀ (s : State) (e : PortIn) (rest : List PortIn) (w : CommandWord), configLegal s.cfg = true →
    s.port.inputs = e :: rest → e.rst = false → e.cmd = some w → s.port.rsp = none →
    (∀ i, decode w = .ok i → step s = exec i { s with port := { s.port with inputs := rest } }) ∧
    (∀ r, decode w = .error r → step s = .next (raiseError .illegal { s with port := { s.port with inputs := rest } }))

/-- 30_encoding.md R76, R77: a state of the invariant answers an accepted word, whatever it is, with one response, laid out as R76 says,
its status one of 0, 1, 2, and `RES = 0` unless the status is `OK`. Nothing is delivered yet. That the response is there at the next
edge of the list is the model's choice (log 6). -/
def Obligations.AcceptedCommandGetsOneResponse : Prop :=
  ∀ (s : State) (e : PortIn) (rest : List PortIn) (w : CommandWord), s.Inv →
    s.port.inputs = e :: rest → e.rst = false → e.cmd = some w → s.port.rsp = none →
    ∃ t r, step s = .next t ∧ t.port.rsp = some r ∧ t.port.delivered = s.port.delivered ∧ t.port.inputs = rest ∧
      rspData t = some r.word ∧ r.word.extractLsb' 0 64 = r.res ∧ r.word.extractLsb' 66 6 = 0#6 ∧
      r.word.extractLsb' 64 2 = (match r.status with | .ok => 0#2 | .illegal => 1#2 | .size => 2#2) ∧
      (r.status ≠ .ok → r.res = 0#64)

/-- 30_encoding.md R70: while a response is outstanding no command is accepted; the response stays on the port until the host takes it,
and taking it delivers exactly it. That `cmd_ready` is still 0 on the very edge that delivers, and that a word presented on an edge where
it is 0 uses up its entry of the list, is the model's reading of R70 (DEDUCED, log 3). -/
def Obligations.OneCommandIsOutstanding : Prop :=
  ∀ (s : State) (e : PortIn) (rest : List PortIn) (r : Response), configLegal s.cfg = true →
    s.port.inputs = e :: rest → e.rst = false → s.port.rsp = some r →
    cmdReady e s = false ∧ rspValid e s = true ∧ rspData s = some r.word ∧
    ∃ t, step s = .next t ∧ sameBlock s t ∧ t.obs = s.obs ∧ t.port.inputs = rest ∧
      (e.rspReady = true → t.port.rsp = none ∧ t.port.delivered = s.port.delivered ++ [r]) ∧
      (e.rspReady = false → t.port.rsp = some r ∧ t.port.delivered = s.port.delivered)

/-- 60_exceptions.md R235, 30_encoding.md R70: with no command outstanding and none presented the block holds its state. -/
def Obligations.IdleBlockHoldsItsState : Prop :=
  (∀ s : State, configLegal s.cfg = true → s.port.inputs = [] → step s = .next s) ∧
  ∀ (s : State) (e : PortIn) (rest : List PortIn), configLegal s.cfg = true → s.port.inputs = e :: rest →
    e.rst = false → e.cmd = none → s.port.rsp = none →
    ∃ t, step s = .next t ∧ sameBlock s t ∧ t.obs = s.obs ∧ t.port.inputs = rest ∧ t.port.rsp = none ∧
      t.port.delivered = s.port.delivered

/-- 10_state.md R34, 70_reset_and_hazards.md R250, R251, R252: reset, whenever it comes, leaves every element at its reset value, abandons an
outstanding command without a response, and keeps the parameters. That one edge completes it is the model's choice (log 6). -/
def Obligations.ResetGivesTheResetValues : Prop :=
  ∀ (s : State) (e : PortIn) (rest : List PortIn), configLegal s.cfg = true → s.port.inputs = e :: rest → e.rst = true →
    cmdReady e s = false ∧ rspValid e s = false ∧
    ∃ t, step s = .next t ∧ (∀ i, t.ring.store.read i = 0#32) ∧ t.ring.head = 0 ∧ t.ring.tail = 0 ∧
      t.ring.N = s.cfg.capacity ∧ t.ring.val = 0#64 ∧
      t.iir.dx1 = 0#64 ∧ t.iir.dy1 = 0#64 ∧ t.iir.dx2 = 0#64 ∧ t.iir.dy2 = 0#64 ∧
      t.port.rsp = none ∧ t.port.delivered = s.port.delivered ∧ t.port.inputs = rest ∧ t.cfg = s.cfg

/-- 20_memory.md R55, 30_encoding.md R70, R85: the ports carry the command stream. A host that presents each word and takes each response
before the next drives the machine, edge by edge, to the state and the responses, in order, of the command-level model. That each exchange takes two
edges is the model's choice (the list of edges: log 3; no time, R70 leaves `LATENCY` open: log 6), and so is the observer's record
(log 7). -/
def Obligations.PortsCarryTheCommandStream : Prop :=
  ∀ (ws : List CommandWord) (more : List PortIn) (s : State), s.Inv → s.port.rsp = none →
    s.port.inputs = exchange ws ++ more →
    ∃ u rs t, serve ws s = some (u, rs) ∧ rs.length = ws.length ∧
      Host.Core.run Sys2Proof.core (2 * ws.length) s = .next t ∧ sameBlock u t ∧ t.obs = u.obs ∧
      t.port.delivered = s.port.delivered ++ rs ∧ t.port.rsp = none ∧ t.port.inputs = more

/-- 00_scope.md R9, 93_implementation_defined.md U12: the step refuses exactly the blocks whose configuration violates the constraints, or
has another `SAMPLE_W` than 16 (D2; log 14), and refuses them for that reason (at the step: the model's choice, log 13). -/
def Obligations.IllegalConfigurationsAreRefused : Prop :=
  ∀ s : State,
    (1 ≤ s.cfg.sampleRate ∧ (1 ≤ s.cfg.capacity ∧ s.cfg.capacity ≤ 2 ^ 24) ∧ s.cfg.sampleW = 16 ∧
      (1 ≤ s.cfg.shift ∧ s.cfg.shift ≤ 30) ∧
      (-2 ^ 15 ≤ s.cfg.coefA ∧ s.cfg.coefA ≤ 2 ^ 15 - 1) ∧ (-2 ^ 15 ≤ s.cfg.coefB0 ∧ s.cfg.coefB0 ≤ 2 ^ 15 - 1) ∧
      (-2 ^ 15 ≤ s.cfg.coefB1 ∧ s.cfg.coefB1 ≤ 2 ^ 15 - 1) → ∀ r, step s ≠ .refused r) ∧
    (¬ (1 ≤ s.cfg.sampleRate ∧ (1 ≤ s.cfg.capacity ∧ s.cfg.capacity ≤ 2 ^ 24) ∧ s.cfg.sampleW = 16 ∧
      (1 ≤ s.cfg.shift ∧ s.cfg.shift ≤ 30) ∧
      (-2 ^ 15 ≤ s.cfg.coefA ∧ s.cfg.coefA ≤ 2 ^ 15 - 1) ∧ (-2 ^ 15 ≤ s.cfg.coefB0 ∧ s.cfg.coefB0 ≤ 2 ^ 15 - 1) ∧
      (-2 ^ 15 ≤ s.cfg.coefB1 ∧ s.cfg.coefB1 ≤ 2 ^ 15 - 1)) → step s = .refused .illegalConfiguration)

/-- 10_state.md R21, 70_reset_and_hazards.md R252: no command and no reset changes a build parameter. -/
def Obligations.NoStepChangesTheConfiguration : Prop :=
  ∀ s t : State, step s = .next t → t.cfg = s.cfg

/-! ## The invariant -/

/-- 10_state.md R34: a block of any legal configuration meets the invariant after reset, and so does the reference block. -/
def Obligations.ResetMeetsTheInvariant : Prop :=
  (∀ cfg : Config, configLegal cfg = true → (State.resetWith cfg).Inv) ∧ State.reset.Inv

/-- 10_state.md R27, R28, 20_memory.md R50, R51: from any state of the invariant every step gives a state of the invariant: indices in
`[0, C]`, the window in `[1, C]`, the storage in canonical form with existing cells only. -/
def Obligations.EveryStepKeepsTheInvariant : Prop :=
  ∀ s t : State, s.Inv → step s = .next t → t.Inv

/-- 20_memory.md R51, 60_exceptions.md R220: a block in a state of the invariant always goes on, whatever the host does: no step faults
and none is refused. -/
def Obligations.TheBlockAlwaysGoesOn : Prop :=
  ∀ s : State, s.Inv → ∃ t, step s = .next t

/-- 20_memory.md R51 (the model's choice to fault there is log 5): the only fault is an access to a cell above `C`, at `head` or `tail`. -/
def Obligations.OnlyMissingCellsFault : Prop :=
  ∀ (s : State) (f : Fault), step s = .fault f →
    ∃ i, f = .storageIndex i ∧ s.cfg.capacity < i ∧ (i = s.ring.tail ∨ i = s.ring.head)

/-! ## Errors and the observer -/

/-- 60_exceptions.md R221, R224, R225: the complete list of error conditions, over every command word: `ILLEGAL` for an illegal word,
`SIZE` for an `RMS_BLOCK` whose window fails, `OK` for all else; an error has `RES = 0` and leaves every state element. -/
def Obligations.ErrorsAreExactlyThese : Prop :=
  ∀ (w : CommandWord) (s : State), s.Inv →
    ∃ t r, perform w s = .next t ∧ t.port.rsp = some r ∧
      (r.status = .illegal ↔ (w.extractLsb' 8 24 ≠ 0#24 ∨ unassigned (w.extractLsb' 0 8).toNat)) ∧
      (r.status = .size ↔ (w.extractLsb' 8 24 = 0#24 ∧ w.extractLsb' 0 8 = 0x20#8 ∧
        ((w.extractLsb' 32 32).toNat = 0 ∨ s.cfg.sampleRate * 10 / (w.extractLsb' 32 32).toNat = 0 ∨
          s.cfg.sampleRate * 10 / (w.extractLsb' 32 32).toNat > s.cfg.capacity))) ∧
      (r.status ≠ .ok → r.res = 0#64 ∧ sameBlock s t)

/-- 60_exceptions.md R226 (the record is the model's observation, log 7): no step removes anything from the fault record, and the
response to an accepted command with a status other than `OK` is recorded. That it is recorded when the command is performed, so that a
reset which abandons the response leaves the entry, is the model's choice (log 16). -/
def Obligations.TheFaultRecordOnlyGrows : Prop :=
  (∀ s t : State, step s = .next t → s.obs.record <+: t.obs.record) ∧
  ∀ (w : CommandWord) (s t : State) (r : Response), perform w s = .next t → t.port.rsp = some r →
    (r.status = .illegal → t.obs.record = s.obs.record ++ [.illegal]) ∧
    (r.status = .size → t.obs.record = s.obs.record ++ [.size])

/-- 93_implementation_defined.md U1, 90_conflicts.md C10 (how the observer counts is the model's choice, log 7): which command adds to the
pushes and which to the pops, evictions among them, and that the clears and reset restart both counts; and that in a stream that has
kept the contract so far a command breaks it, its pops outnumbering the pushes since the last clear, exactly when `popEmpty` is
recorded. -/
def Obligations.PopsBeyondPushesAreRecorded : Prop :=
  (∀ (i : Instr) (s t : State), exec i s = .next t →
    (i = .clrBlock ∨ i = .clrAll → t.obs.pushes = 0 ∧ t.obs.pops = 0) ∧
    ((∃ v, i = .rbPush v) → t.obs.pushes = s.obs.pushes + 1 ∧ t.obs.pops = s.obs.pops) ∧
    (i = .rbPop → t.obs.pushes = s.obs.pushes ∧ t.obs.pops = s.obs.pops + 1) ∧
    ((∃ v, i = .rbPushPop v) ∨ (∃ x freq, i = .rmsBlock x freq ∧ rspStatus t = some .ok) →
      t.obs.pushes = s.obs.pushes + 1 ∧
      t.obs.pops = s.obs.pops + (if t.ring.tail = s.ring.head then 1 else 0)) ∧
    (leavesRing i = true ∨ (∃ n, i = .rbSetSize n) ∨ (∃ x freq, i = .rmsBlock x freq ∧ rspStatus t ≠ some .ok) →
      t.obs.pushes = s.obs.pushes ∧ t.obs.pops = s.obs.pops)) ∧
  (∀ (w : CommandWord) (r : Reject) (s t : State), decode w = .error r → perform w s = .next t →
    t.obs.pushes = s.obs.pushes ∧ t.obs.pops = s.obs.pops) ∧
  (∀ (s : State) (e : PortIn) (rest : List PortIn), configLegal s.cfg = true → s.port.inputs = e :: rest → e.rst = true →
    ∃ t, step s = .next t ∧ t.obs.pushes = 0 ∧ t.obs.pops = 0) ∧
  ∀ (i : Instr) (s t : State), s.obs.pops ≤ s.obs.pushes → exec i s = .next t →
    (t.obs.pushes < t.obs.pops ↔ t.obs.record.count .popEmpty = s.obs.record.count .popEmpty + 1) ∧
    (t.obs.pops ≤ t.obs.pushes ↔ t.obs.record.count .popEmpty = s.obs.record.count .popEmpty)

/-! ## Square roots -/

/-- 40_isqrt.md R101, R102, R107: `ISQRT_WIDE` answers the floor of the square root, of 32 bits, and touches nothing. -/
def Obligations.IsqrtWideAnswersTheFloorRoot : Prop :=
  ∀ (x : BitVec 64) (s : State), ∃ t r, exec (.isqrtWide x) s = .next t ∧ answered t .ok r ∧
    r.toNat < 2 ^ 32 ∧ isFloorSqrt r.toNat x.toNat ∧ sameBlock s t ∧ sameHostSide s t ∧ t.obs = s.obs

/-- 40_isqrt.md R105, R107, R108: `ISQRT_NARROW` answers the floor of the square root, of 16 bits, and touches nothing. -/
def Obligations.IsqrtNarrowAnswersTheFloorRoot : Prop :=
  ∀ (x : BitVec 32) (s : State), ∃ t r, exec (.isqrtNarrow x) s = .next t ∧ answered t .ok r ∧
    r.toNat < 2 ^ 16 ∧ isFloorSqrt r.toNat x.toNat ∧ sameBlock s t ∧ sameHostSide s t ∧ t.obs = s.obs

/-- 40_isqrt.md R109: the two square-root designs, binary search and digit recurrence, agree on every 32-bit input. -/
def Obligations.TheTwoSquareRootsAgree : Prop :=
  ∀ (x : BitVec 32) (s : State), exec (.isqrtNarrow x) s = exec (.isqrtWide (x.setWidth 64)) s

/-! ## Ring buffer -/

/-- 41_ring_buffer.md R121, R122, R125: `RB_PUSH` stores at `tail`, advances `tail`, answers 0, and leaves every other cell and element. -/
def Obligations.RbPushStoresAtTail : Prop :=
  ∀ (v : Cell) (s : State), s.ring.store.wf → s.ring.tail ≤ s.cfg.capacity →
    ∃ t, exec (.rbPush v) s = .next t ∧ answered t .ok 0#64 ∧
      t.ring.store.read s.ring.tail = v ∧
      (∀ a, a ≠ s.ring.tail → t.ring.store.read a = s.ring.store.read a) ∧
      t.ring.tail = (if s.ring.tail + 1 > s.ring.N then 0 else s.ring.tail + 1) ∧
      t.ring.head = s.ring.head ∧ t.ring.N = s.ring.N ∧ t.ring.val = s.ring.val ∧ t.iir = s.iir ∧ sameHostSide s t

/-- 41_ring_buffer.md R121, R123, R128: `RB_POP` answers the cell at `head`, advances `head`, checks nothing, and leaves every cell and
every other element. -/
def Obligations.RbPopReadsAtHead : Prop :=
  ∀ s : State, s.ring.head ≤ s.cfg.capacity →
    ∃ t, exec .rbPop s = .next t ∧ answered t .ok ((s.ring.store.read s.ring.head).setWidth 64) ∧
      t.ring.head = (if s.ring.head + 1 > s.ring.N then 0 else s.ring.head + 1) ∧
      (∀ a, t.ring.store.read a = s.ring.store.read a) ∧
      t.ring.tail = s.ring.tail ∧ t.ring.N = s.ring.N ∧ t.ring.val = s.ring.val ∧ t.iir = s.iir ∧ sameHostSide s t

/-- 41_ring_buffer.md R121, R124, R131: `RB_PUSH_POP` pushes; if the push brought `tail` onto `head` it pops too and answers the evicted
cell as it reads after the push, otherwise it answers 0. -/
def Obligations.RbPushPopEvictsWhenFull : Prop :=
  ∀ (v : Cell) (s : State), s.ring.store.wf → s.ring.tail ≤ s.cfg.capacity →
    (adv s.ring.N s.ring.tail = s.ring.head → s.ring.head ≤ s.cfg.capacity) →
    ∃ t, exec (.rbPushPop v) s = .next t ∧
      t.ring.store.read s.ring.tail = v ∧
      (∀ a, a ≠ s.ring.tail → t.ring.store.read a = s.ring.store.read a) ∧
      t.ring.tail = (if s.ring.tail + 1 > s.ring.N then 0 else s.ring.tail + 1) ∧
      (t.ring.tail = s.ring.head → answered t .ok ((t.ring.store.read s.ring.head).setWidth 64) ∧
        t.ring.head = (if s.ring.head + 1 > s.ring.N then 0 else s.ring.head + 1)) ∧
      (t.ring.tail ≠ s.ring.head → answered t .ok 0#64 ∧ t.ring.head = s.ring.head) ∧
      t.ring.N = s.ring.N ∧ t.ring.val = s.ring.val ∧ t.iir = s.iir ∧ sameHostSide s t

/-- 41_ring_buffer.md R135, R136 (first sentence): `RB_SET_SIZE` sets the window length when `1 ≤ n ≤ C` and answers 1, otherwise answers
0 and changes nothing; it moves no index and no stored value. -/
def Obligations.RbSetSizeSetsTheWindow : Prop :=
  ∀ (n : BitVec 32) (s : State), ∃ t, exec (.rbSetSize n) s = .next t ∧
    (n.toNat = 0 ∨ n.toNat > s.cfg.capacity → answered t .ok 0#64 ∧ t.ring.N = s.ring.N) ∧
    (1 ≤ n.toNat ∧ n.toNat ≤ s.cfg.capacity → answered t .ok 1#64 ∧ t.ring.N = n.toNat) ∧
    (∀ a, t.ring.store.read a = s.ring.store.read a) ∧ t.ring.head = s.ring.head ∧ t.ring.tail = s.ring.tail ∧
    t.ring.val = s.ring.val ∧ t.iir = s.iir ∧ sameHostSide s t

/-- 20_memory.md R51 (that the model stops there is its own choice, log 5): a ring access above `C` faults, naming the index. No state of
the invariant reaches this. -/
def Obligations.RingAccessAboveCapacityFaults : Prop :=
  ∀ s : State,
    (s.cfg.capacity < s.ring.tail → ∀ v, exec (.rbPush v) s = .fault (.storageIndex s.ring.tail) ∧
      exec (.rbPushPop v) s = .fault (.storageIndex s.ring.tail)) ∧
    (s.cfg.capacity < s.ring.head → exec .rbPop s = .fault (.storageIndex s.ring.head)) ∧
    (s.ring.tail ≤ s.cfg.capacity → adv s.ring.N s.ring.tail = s.ring.head → s.cfg.capacity < s.ring.head →
      ∀ v, exec (.rbPushPop v) s = .fault (.storageIndex s.ring.head)) ∧
    (s.cfg.capacity < s.ring.tail → ∀ (x : Sample) (freq : BitVec 32), freq.toNat ≠ 0 →
      1 ≤ s.cfg.sampleRate * 10 / freq.toNat → s.cfg.sampleRate * 10 / freq.toNat ≤ s.cfg.capacity →
      exec (.rmsBlock x freq) s = .fault (.storageIndex s.ring.tail))

/-- 41_ring_buffer.md R129, 10_state.md R29: a pop of an empty buffer is performed literally: the stale cell is answered, `head` passes
`tail`, and the indices then read as a full window of `N` elements. -/
def Obligations.PopOfEmptyReturnsTheStaleCell : Prop :=
  ∀ s : State, s.ring.head = s.ring.tail → s.ring.tail ≤ s.ring.N → s.ring.N ≤ s.cfg.capacity →
    ∃ t, exec .rbPop s = .next t ∧ answered t .ok ((s.ring.store.read s.ring.head).setWidth 64) ∧
      t.ring.head = (if s.ring.tail + 1 > s.ring.N then 0 else s.ring.tail + 1) ∧
      t.ring.tail = s.ring.tail ∧ t.ring.head ≤ t.ring.N ∧ occupancy t.ring = t.ring.N

/-- 41_ring_buffer.md R132: the sliding-window law, for any number of `RB_PUSH_POP` commands on an empty buffer at any index. The first
`N` calls answer 0 and each later one the value pushed `N` calls before; the buffered cells are the last `N` values pushed, oldest
first. -/
def Obligations.SlidingWindowLaw : Prop :=
  ∀ (vs : List Cell) (s : State), s.ring.store.wf → s.ring.head = s.ring.tail → s.ring.tail ≤ s.ring.N →
    s.ring.N ≤ s.cfg.capacity →
    ∃ t, commands (vs.map .rbPushPop) s =
        some (t, ((List.replicate s.ring.N 0#32 ++ vs).take vs.length).map fun e => { status := .ok, res := e.setWidth 64 }) ∧
      buffered t.ring = lastOf s.ring.N vs ∧ t.ring.N = s.ring.N ∧ t.ring.val = s.ring.val ∧ t.iir = s.iir

/-- 41_ring_buffer.md R127, R120: up to `N + 1` plain pushes on an empty buffer come back in order from as many pops. -/
def Obligations.PushedValuesPopInOrder : Prop :=
  ∀ (vs : List Cell) (s : State), s.ring.store.wf → s.ring.head = s.ring.tail → s.ring.tail ≤ s.ring.N →
    s.ring.N ≤ s.cfg.capacity → vs.length ≤ s.ring.N + 1 →
    ∃ t, commands (vs.map .rbPush ++ List.replicate vs.length .rbPop) s =
        some (t, List.replicate vs.length { status := .ok, res := 0#64 } ++
          vs.map fun v => { status := .ok, res := v.setWidth 64 }) ∧
      t.ring.head = t.ring.tail ∧ t.ring.N = s.ring.N

/-- 41_ring_buffer.md R127: after a push that moves `tail` onto `head`, the next pop answers the oldest element, and instead of it the next
push-pop or push overwrites the cell at `head`, the oldest; the push-pop evicts nothing. -/
def Obligations.PushOntoHeadOverwritesTheOldest : Prop :=
  ∀ (v v' : Cell) (s : State), s.Inv → adv s.ring.N s.ring.tail = s.ring.head →
    ∃ t p u u', exec (.rbPush v) s = .next t ∧ t.ring.tail = t.ring.head ∧
      exec .rbPop t = .next p ∧ answered p .ok ((s.ring.store.read s.ring.head).setWidth 64) ∧
      exec (.rbPushPop v') t = .next u ∧ answered u .ok 0#64 ∧ u.ring.head = s.ring.head ∧ u.ring.tail ≠ u.ring.head ∧
      u.ring.store.read s.ring.head = v' ∧
      exec (.rbPush v') t = .next u' ∧ u'.ring.head = s.ring.head ∧ u'.ring.store.read s.ring.head = v'

/-- 41_ring_buffer.md R136 (third consequence), 70_reset_and_hazards.md R256: with `head` left above the window by a shrink, `RB_PUSH_POP`
never evicts, however many are issued. -/
def Obligations.ShrunkWindowNeverEvicts : Prop :=
  ∀ (vs : List Cell) (s : State), s.ring.N < s.ring.head → s.ring.tail ≤ s.ring.N → s.ring.N ≤ s.cfg.capacity →
    ∃ t, commands (vs.map .rbPushPop) s = some (t, List.replicate vs.length { status := .ok, res := 0#64 }) ∧
      t.ring.head = s.ring.head ∧ t.ring.tail ≤ t.ring.N ∧ t.ring.N = s.ring.N

/-- 41_ring_buffer.md R121, R124, R136 (first consequence, made exact; log 9): after a grow of a full window (`N` elements, both indices
inside it) the next `RB_PUSH_POP` evicts exactly when the full window did not end at its last position, that is when `head` is not 0. -/
def Obligations.GrownFullWindowEvictsUnlessHeadIsZero : Prop :=
  ∀ (n : BitVec 32) (v : Cell) (s : State), s.Inv → s.ring.head ≤ s.ring.N → s.ring.tail ≤ s.ring.N →
    occupancy s.ring = s.ring.N → s.ring.N < n.toNat → n.toNat ≤ s.cfg.capacity →
    ∃ t u, exec (.rbSetSize n) s = .next t ∧ t.ring.N = n.toNat ∧ exec (.rbPushPop v) t = .next u ∧
      (s.ring.head ≠ 0 → answered u .ok ((s.ring.store.read s.ring.head).setWidth 64) ∧ u.ring.head = s.ring.head + 1) ∧
      (s.ring.head = 0 → answered u .ok 0#64 ∧ u.ring.head = 0)

/-! ## Block estimator -/

/-- 42_block_rms.md R151, R152, R154: a successful `RMS_BLOCK` sets the window, adds the exact square, pushes it, subtracts what is
evicted, and answers the integer root of the mean of the window. -/
def Obligations.RmsBlockUpdatesTheRunningSum : Prop :=
  ∀ (x : Sample) (freq : BitVec 32) (s : State), s.ring.store.wf → s.ring.tail ≤ s.cfg.capacity →
    freq.toNat ≠ 0 → 1 ≤ s.cfg.sampleRate * 10 / freq.toNat →
    s.cfg.sampleRate * 10 / freq.toNat ≤ s.cfg.capacity →
    ∃ t r, exec (.rmsBlock x freq) s = .next t ∧ answered t .ok r ∧
      t.ring.N = s.cfg.sampleRate * 10 / freq.toNat ∧
      (t.ring.store.read s.ring.tail).toNat = (x.toInt * x.toInt).toNat ∧
      (∀ a, a ≠ s.ring.tail → t.ring.store.read a = s.ring.store.read a) ∧
      t.ring.tail = (if s.ring.tail + 1 > t.ring.N then 0 else s.ring.tail + 1) ∧
      (t.ring.tail = s.ring.head →
        t.ring.head = (if s.ring.head + 1 > t.ring.N then 0 else s.ring.head + 1) ∧
        t.ring.val = s.ring.val + BitVec.ofInt 64 (x.toInt * x.toInt) - (t.ring.store.read s.ring.head).setWidth 64) ∧
      (t.ring.tail ≠ s.ring.head →
        t.ring.head = s.ring.head ∧ t.ring.val = s.ring.val + BitVec.ofInt 64 (x.toInt * x.toInt)) ∧
      isFloorSqrt r.toNat (t.ring.val.toNat / t.ring.N) ∧ r.toNat < 2 ^ 32 ∧ t.iir = s.iir ∧ sameHostSide s t

/-- 42_block_rms.md R153, 60_exceptions.md R223: `RMS_BLOCK` answers `SIZE` in exactly the three cases, and then changes nothing. -/
def Obligations.RmsBlockRefusesBadWindows : Prop :=
  ∀ (x : Sample) (freq : BitVec 32) (s : State),
    ((freq.toNat = 0 ∨ s.cfg.sampleRate * 10 / freq.toNat = 0 ∨ s.cfg.sampleRate * 10 / freq.toNat > s.cfg.capacity) →
      ∃ t, exec (.rmsBlock x freq) s = .next t ∧ answered t .size 0#64 ∧ sameBlock s t ∧ sameHostSide s t) ∧
    (∀ t r, exec (.rmsBlock x freq) s = .next t → t.port.rsp = some r → r.status ≠ .ok →
      (freq.toNat = 0 ∨ s.cfg.sampleRate * 10 / freq.toNat = 0 ∨ s.cfg.sampleRate * 10 / freq.toNat > s.cfg.capacity))

/-- 42_block_rms.md R159: at the lowest frequency `RMS_BLOCK` returns `OK` if and only if the window fits the capacity. -/
def Obligations.RmsBlockAtMinFreq : Prop :=
  ∀ (x : Sample) (freq : BitVec 32) (s : State), s.Inv → freq.toNat = s.cfg.minFreq →
    ((∃ t r, exec (.rmsBlock x freq) s = .next t ∧ answered t .ok r) ↔
      (1 ≤ s.cfg.sampleRate * 10 / s.cfg.minFreq ∧ s.cfg.sampleRate * 10 / s.cfg.minFreq ≤ s.cfg.capacity))

/-- 42_block_rms.md R160: no command word reads `MIN_FREQ` or `MAX_FREQ`: a block built with others does the same. -/
def Obligations.FrequencyLimitsAreNotRead : Prop :=
  ∀ (w : CommandWord) (lo : Nat) (hi : Option Nat) (s t : State), perform w s = .next t →
    perform w { s with cfg := { s.cfg with minFreq := lo, maxFreq := hi } } =
      .next { t with cfg := { t.cfg with minFreq := lo, maxFreq := hi } }

/-- 42_block_rms.md R156: the running-sum invariant, from a cleared block, for any stream whose commands leave the RB+BLK group alone or are
`RMS_BLOCK`s of one window length: all are answered `OK`, the buffered cells are the squares of the last `min(k, size)` samples, and
`val` is their exact sum. -/
def Obligations.RunningSumEqualsTheWindow : Prop :=
  ∀ (size : Nat) (is : List Instr) (s : State), s.Inv → s.ring.head = 0 → s.ring.tail = 0 →
    s.ring.val = 0#64 → 1 ≤ size → size ≤ s.cfg.capacity → oneWindow s.cfg size is →
    ∃ t rs, commands is s = some (t, rs) ∧ rs.length = is.length ∧ (∀ r ∈ rs, r.status = .ok) ∧
      (buffered t.ring).map BitVec.toNat = lastOf size ((blockSamples is).map fun x => (x.toInt * x.toInt).toNat) ∧
      t.ring.val.toNat = sumSquares (lastOf size (blockSamples is))

/-- 42_block_rms.md R158: the result law. After any stream as in R156 the next `RMS_BLOCK` of that window length is answered with the
exact integer-truncated root of the sum of the squares of the last `min(k, size)` samples, its own among them, divided by `size`. -/
def Obligations.BlockResultIsTheWindowRms : Prop :=
  ∀ (size : Nat) (is : List Instr) (x : Sample) (freq : BitVec 32) (s : State), s.Inv → s.ring.head = 0 → s.ring.tail = 0 →
    s.ring.val = 0#64 → 1 ≤ size → size ≤ s.cfg.capacity → oneWindow s.cfg size (is ++ [.rmsBlock x freq]) →
    ∃ t rs u r, commands is s = some (t, rs) ∧ exec (.rmsBlock x freq) t = .next u ∧ answered u .ok r ∧
      r.toNat * r.toNat * size ≤ sumSquares (lastOf size (blockSamples is ++ [x])) ∧
      sumSquares (lastOf size (blockSamples is ++ [x])) < (r.toNat + 1) * (r.toNat + 1) * size

/-! ## IIR estimator -/

/-- 43_iir_rms.md R172, R174, R180, R181: `RMS_EX` runs the two stages on the exact square, each reading its own cells as they were, and
answers the integer root of the saturated stage-2 output. -/
def Obligations.RmsExRunsTwoStages : Prop :=
  ∀ (x : Sample) (s : State), ∃ t r, exec (.rmsEx x) s = .next t ∧ answered t .ok r ∧
    (let shifted := fun (coef v : Int) => (BitVec.ofInt 64 (coef * v)).toInt / 2 ^ s.cfg.shift
     let z := x.toInt * x.toInt
     let y1 := (BitVec.ofInt 64 (shifted s.cfg.coefB0 z + s.iir.dx1.toInt)).toInt
     let y2 := (BitVec.ofInt 64 (shifted s.cfg.coefB0 y1 + s.iir.dx2.toInt)).toInt
     t.iir.dx1 = BitVec.ofInt 64 (shifted s.cfg.coefB1 z - shifted s.cfg.coefA s.iir.dy1.toInt) ∧ t.iir.dy1.toInt = y1 ∧
     t.iir.dx2 = BitVec.ofInt 64 (shifted s.cfg.coefB1 y1 - shifted s.cfg.coefA s.iir.dy2.toInt) ∧ t.iir.dy2.toInt = y2 ∧
     isFloorSqrt r.toNat (max 0 (min y2 (2 ^ 32 - 1))).toNat ∧ r.toNat < 2 ^ 16) ∧
    t.cfg = s.cfg ∧ t.ring = s.ring ∧ sameHostSide s t ∧ t.obs = s.obs

/-- 43_iir_rms.md R176: the recursion of both stages over two calls: the feedback comes from the output two calls back. -/
def Obligations.FilterFeedsBackTwoCalls : Prop :=
  ∀ (x x' : Sample) (s : State), ∃ t u, exec (.rmsEx x) s = .next t ∧ exec (.rmsEx x') t = .next u ∧
    (let shifted := fun (coef v : Int) => (BitVec.ofInt 64 (coef * v)).toInt / 2 ^ s.cfg.shift
     u.iir.dy1 = BitVec.ofInt 64 (shifted s.cfg.coefB0 (x'.toInt * x'.toInt) + shifted s.cfg.coefB1 (x.toInt * x.toInt)
       - shifted s.cfg.coefA s.iir.dy1.toInt) ∧
     u.iir.dy2 = BitVec.ofInt 64 (shifted s.cfg.coefB0 u.iir.dy1.toInt + shifted s.cfg.coefB1 t.iir.dy1.toInt
       - shifted s.cfg.coefA s.iir.dy2.toInt))

/-- 43_iir_rms.md R180, 42_block_rms.md R154 (corner cases): a sample and its negation give the same state and the same response. -/
def Obligations.SampleSignDoesNotMatter : Prop :=
  ∀ (x : Sample) (freq : BitVec 32) (s : State),
    exec (.rmsEx x) s = exec (.rmsEx (-x)) s ∧ exec (.rmsBlock x freq) s = exec (.rmsBlock (-x) freq) s

/-- 43_iir_rms.md R184, made inductive: with the default coefficients every step keeps every delay-line cell in `[0, 2^30]`. -/
def Obligations.FilterCellsStayInRange : Prop :=
  ∀ s t : State, defaultFilter s.cfg → iirInRange s.iir → step s = .next t → iirInRange t.iir

/-- 43_iir_rms.md R183 (first observation, and a bound): fed a constant sample from the zero state with the default coefficients, the output
never decreases and never exceeds the magnitude of the sample. -/
def Obligations.ConstantInputNeverFallsNorExceedsItsMagnitude : Prop :=
  ∀ (x : Sample) (n : Nat) (s : State), defaultFilter s.cfg → s.iir = IirLine.reset →
    ∃ t rs, commands (List.replicate n (.rmsEx x)) s = some (t, rs) ∧ rs.length = n ∧
      (∀ (j k : Nat) (r q : Response), j ≤ k → rs[j]? = some r → rs[k]? = some q → r.res.toNat ≤ q.res.toNat) ∧
      ∀ r ∈ rs, r.status = .ok ∧ r.res.toNat ≤ x.toInt.natAbs

/-- 43_iir_rms.md R183 (second observation): with the default coefficients samples of magnitude at most 12 never enter the zero filter. -/
def Obligations.SmallSamplesStayAtZero : Prop :=
  ∀ (xs : List Sample) (s : State), defaultFilter s.cfg → s.iir = IirLine.reset → (∀ x ∈ xs, x.toInt.natAbs ≤ 12) →
    ∃ t, commands (xs.map .rmsEx) s = some (t, List.replicate xs.length { status := .ok, res := 0#64 }) ∧
      t.iir = IirLine.reset

/-! ## Control -/

/-- 44_control.md R201: `CLR_BLOCK` gives the RB+BLK group its reset values and touches nothing else. -/
def Obligations.ClrBlockResetsTheRingGroup : Prop :=
  ∀ s : State, ∃ t, exec .clrBlock s = .next t ∧ answered t .ok 0#64 ∧ (∀ i, t.ring.store.read i = 0#32) ∧
    t.ring.head = 0 ∧ t.ring.tail = 0 ∧ t.ring.N = s.cfg.capacity ∧ t.ring.val = 0#64 ∧ t.iir = s.iir ∧ sameHostSide s t

/-- 44_control.md R202: `CLR_EX` zeroes the four delay cells and touches nothing else. -/
def Obligations.ClrExResetsTheDelayLine : Prop :=
  ∀ s : State, ∃ t, exec .clrEx s = .next t ∧ answered t .ok 0#64 ∧ t.iir.dx1 = 0#64 ∧ t.iir.dy1 = 0#64 ∧
    t.iir.dx2 = 0#64 ∧ t.iir.dy2 = 0#64 ∧ t.ring = s.ring ∧ sameHostSide s t

/-- 44_control.md R203, 70_reset_and_hazards.md R253: `CLR_ALL` gives every element its reset value, so the state is the one a reset
leaves. That one edge with `rst` completes a reset is the model's choice (log 6). -/
def Obligations.ClrAllEqualsReset : Prop :=
  ∀ s : State, ∃ t, exec .clrAll s = .next t ∧ answered t .ok 0#64 ∧ (∀ i, t.ring.store.read i = 0#32) ∧
    t.ring.head = 0 ∧ t.ring.tail = 0 ∧ t.ring.N = s.cfg.capacity ∧ t.ring.val = 0#64 ∧
    t.iir.dx1 = 0#64 ∧ t.iir.dy1 = 0#64 ∧ t.iir.dx2 = 0#64 ∧ t.iir.dy2 = 0#64 ∧ sameHostSide s t ∧
    sameBlock (State.resetWith s.cfg) t ∧
    ∀ (e : PortIn) (rest : List PortIn), configLegal s.cfg = true → s.port.inputs = e :: rest → e.rst = true →
      ∃ u, step s = .next u ∧ sameBlock u t

/-- 44_control.md R201: the storage `CLR_BLOCK` leaves is the one the spec's loop of writes leaves. -/
def Obligations.ClrBlockIsTheWriteLoop : Prop :=
  ∀ s : State, s.Inv → ∃ t, exec .clrBlock s = .next t ∧ t.ring.store = s.ring.store.zeroUpTo s.cfg.capacity

/-! ## The whole machine -/

/-- 10_state.md R28, R30, R31: which commands write which element. -/
def Obligations.EachElementHasItsWriters : Prop :=
  ∀ (i : Instr) (s t : State), exec i s = .next t →
    (t.ring.N ≠ s.ring.N → (∃ n, i = .rbSetSize n) ∨ (∃ x f, i = .rmsBlock x f) ∨ i = .clrBlock ∨ i = .clrAll) ∧
    (t.ring.val ≠ s.ring.val → (∃ x f, i = .rmsBlock x f) ∨ i = .clrBlock ∨ i = .clrAll) ∧
    (t.iir ≠ s.iir → (∃ x, i = .rmsEx x) ∨ i = .clrEx ∨ i = .clrAll)

/-- 10_state.md R33: the two groups are independent. Apart from `CLR_ALL` a command either leaves the delay line alone and does the same
whatever the delay line holds, or leaves the ring group alone and does the same whatever the ring group holds; a square root does both. -/
def Obligations.TheTwoGroupsAreIndependent : Prop :=
  ∀ (i : Instr) (s t : State), exec i s = .next t →
    (i ≠ .clrAll →
      (t.iir = s.iir ∧ ∀ s', s'.cfg = s.cfg → s'.ring = s.ring →
        ∃ t', exec i s' = .next t' ∧ t'.ring = t.ring ∧ t'.iir = s'.iir ∧ t'.port.rsp = t.port.rsp) ∨
      (t.ring = s.ring ∧ ∀ s', s'.cfg = s.cfg → s'.iir = s.iir →
        ∃ t', exec i s' = .next t' ∧ t'.iir = t.iir ∧ t'.ring = s'.ring ∧ t'.port.rsp = t.port.rsp)) ∧
    ((∃ x, i = .isqrtWide x) ∨ (∃ x, i = .isqrtNarrow x) →
      sameBlock s t ∧ ∀ s', ∃ t', exec i s' = .next t' ∧ t'.port.rsp = t.port.rsp)

/-- 10_state.md R20, 20_memory.md R61, 30_encoding.md R85: a command's effect and response depend on the configuration, the architectural
state and the command word alone: nothing else persists from one command to the next. -/
def Obligations.NothingElsePersists : Prop :=
  ∀ (w : CommandWord) (s s' t : State), sameBlock s s' → perform w s = .next t →
    ∃ t', perform w s' = .next t' ∧ sameBlock t t' ∧ t'.port.rsp = t.port.rsp

/-! ## The response word on a transport -/

/-- 20_memory.md R52, R53: on a byte-wide transport byte `k` of a response word is bits `[8k+7 : 8k]`, on a 32-bit transport word `j` is bits
`[32j+31 : 32j]`, of the third word only the low 8 bits are the response's (the rest is a free value, log 15); the nine bytes, or the
three words, give the response word back, and any other number of them is no whole response word. -/
def Obligations.TransportCarriesWholeResponses : Prop :=
  (∀ r : Response, responseOfBytes r.bytes = some r.word ∧
    ∀ k < 9, r.bytes[k]? = some (r.word.extractLsb' (8 * k) 8)) ∧
  (∀ bs : List Byte, bs.length ≠ 9 → responseOfBytes bs = none) ∧
  (∀ r : Response, responseOfWords r.words = some r.word ∧ r.words.length = 3 ∧
    (∀ j < 2, r.words[j]? = some (r.word.extractLsb' (32 * j) 32)) ∧
    ∀ u, r.words[2]? = some u → u.extractLsb' 0 8 = r.word.extractLsb' 64 8) ∧
  ∀ ws : List (BitVec 32), ws.length ≠ 3 → responseOfWords ws = none
end

