-- ==== Sys2Proof/Laws/Decode.lean ====
section
/-! SUPPORT. The fields of a command word built from its fields, and the well-formedness of every command. -/

namespace Sys2Proof

/-- Bit `i` of a command word, by field. -/
theorem getLsbD_commandWord (a : BitVec 64) (b : BitVec 32) (r : BitVec 24) (o : BitVec 8) (i : Nat) (hi : i < 128) :
    (commandWord a b r o).getLsbD i =
      if i < 8 then o.getLsbD i else if i < 32 then r.getLsbD (i - 8) else if i < 64 then b.getLsbD (i - 32)
      else a.getLsbD (i - 64) := by
  have ho : 8 ≤ i → o.getLsbD i = false := fun h => BitVec.getLsbD_of_ge o i h
  have hr : 24 ≤ i - 8 → r.getLsbD (i - 8) = false := fun h => BitVec.getLsbD_of_ge r _ h
  have hb : 32 ≤ i - 32 → b.getLsbD (i - 32) = false := fun h => BitVec.getLsbD_of_ge b _ h
  simp only [commandWord, BitVec.getLsbD_or, BitVec.getLsbD_shiftLeft, BitVec.getLsbD_setWidth, hi,
    show i - 64 < 128 by omega, show i - 32 < 128 by omega, show i - 8 < 128 by omega, decide_true, Bool.true_and]
  by_cases h8 : i < 8
  · simp [h8, show i < 64 by omega, show i < 32 by omega]
  by_cases h32 : i < 32
  · simp [h8, h32, show i < 64 by omega, ho (by omega)]
  by_cases h64 : i < 64
  · simp [h8, h32, h64, ho (by omega), hr (by omega)]
  · simp [h8, h32, h64, ho (by omega), hr (by omega), hb (by omega)]

@[simp] theorem fieldA_commandWord (a : BitVec 64) (b : BitVec 32) (r : BitVec 24) (o : BitVec 8) :
    fieldA (commandWord a b r o) = a := by
  apply BitVec.eq_of_getLsbD_eq
  intro i hi
  simp only [fieldA, BitVec.getLsbD_extractLsb', hi, decide_true, Bool.true_and]
  rw [getLsbD_commandWord _ _ _ _ _ (by omega), if_neg (by omega), if_neg (by omega), if_neg (by omega)]
  congr 1
  omega

@[simp] theorem fieldB_commandWord (a : BitVec 64) (b : BitVec 32) (r : BitVec 24) (o : BitVec 8) :
    fieldB (commandWord a b r o) = b := by
  apply BitVec.eq_of_getLsbD_eq
  intro i hi
  simp only [fieldB, BitVec.getLsbD_extractLsb', hi, decide_true, Bool.true_and]
  rw [getLsbD_commandWord _ _ _ _ _ (by omega), if_neg (by omega), if_neg (by omega), if_pos (by omega)]
  congr 1
  omega

@[simp] theorem fieldRsvd_commandWord (a : BitVec 64) (b : BitVec 32) (r : BitVec 24) (o : BitVec 8) :
    fieldRsvd (commandWord a b r o) = r := by
  apply BitVec.eq_of_getLsbD_eq
  intro i hi
  simp only [fieldRsvd, BitVec.getLsbD_extractLsb', hi, decide_true, Bool.true_and]
  rw [getLsbD_commandWord _ _ _ _ _ (by omega), if_neg (by omega), if_pos (by omega)]
  congr 1
  omega

@[simp] theorem fieldOpc_commandWord (a : BitVec 64) (b : BitVec 32) (r : BitVec 24) (o : BitVec 8) :
    fieldOpc (commandWord a b r o) = o := by
  apply BitVec.eq_of_getLsbD_eq
  intro i hi
  simp only [fieldOpc, BitVec.getLsbD_extractLsb', hi, decide_true, Bool.true_and, Nat.zero_add]
  rw [getLsbD_commandWord _ _ _ _ _ (by omega), if_pos hi]

/-- A word is its four fields. -/
theorem commandWord_fields (w : CommandWord) :
    commandWord (fieldA w) (fieldB w) (fieldRsvd w) (fieldOpc w) = w := by
  apply BitVec.eq_of_getLsbD_eq
  intro i hi
  rw [getLsbD_commandWord _ _ _ _ _ hi]
  simp only [fieldA, fieldB, fieldRsvd, fieldOpc, BitVec.getLsbD_extractLsb']
  by_cases h8 : i < 8
  · simp [h8]
  by_cases h32 : i < 32
  · simp [h8, h32, show 8 + (i - 8) = i by omega, show i - 8 < 24 by omega]
  by_cases h64 : i < 64
  · simp [h8, h32, h64, show 32 + (i - 32) = i by omega, show i - 32 < 32 by omega]
  · simp [h8, h32, h64, show 64 + (i - 64) = i by omega, show i - 64 < 64 by omega]

/-- A command word's fields, masked, are the fields masked. -/
theorem commandWord_and (a a' : BitVec 64) (b b' : BitVec 32) (r r' : BitVec 24) (o o' : BitVec 8) :
    commandWord a b r o &&& commandWord a' b' r' o' = commandWord (a &&& a') (b &&& b') (r &&& r') (o &&& o') := by
  apply BitVec.eq_of_getLsbD_eq
  intro i hi
  rw [BitVec.getLsbD_and, getLsbD_commandWord _ _ _ _ _ hi, getLsbD_commandWord _ _ _ _ _ hi,
    getLsbD_commandWord _ _ _ _ _ hi]
  split <;> [skip; split <;> [skip; split]] <;> simp only [BitVec.getLsbD_and]

/-! ## Operands -/

theorem getLsbD_lowOnes (n i : Nat) : (lowOnes n).getLsbD i = (decide (i < 64) && decide (i < n)) := by
  simp [lowOnes, BitVec.getLsbD_setWidth, BitVec.getLsbD_allOnes]

/-- A value of at most 64 bits read back from the low bits of `A`. -/
theorem extract_setWidth {n : Nat} (hn : n ≤ 64) (v : BitVec n) : (v.setWidth 64).extractLsb' 0 n = v := by
  apply BitVec.eq_of_getLsbD_eq
  intro i hi
  simp only [BitVec.getLsbD_extractLsb', BitVec.getLsbD_setWidth, hi, Nat.zero_add, decide_true, Bool.true_and,
    show i < 64 by omega]

/-- The low bits of `A`, put back, are `A` masked. -/
theorem setWidth_extract {n : Nat} (a : BitVec 64) : (a.extractLsb' 0 n).setWidth 64 = a &&& lowOnes n := by
  apply BitVec.eq_of_getLsbD_eq
  intro i hi
  simp only [BitVec.getLsbD_extractLsb', BitVec.getLsbD_setWidth, BitVec.getLsbD_and, getLsbD_lowOnes, hi, Nat.zero_add,
    decide_true, Bool.true_and, Bool.and_comm]

/-- A value of at most `n` bits is kept by the mask. -/
theorem setWidth_and_lowOnes {n : Nat} (v : BitVec n) : v.setWidth 64 &&& lowOnes n = v.setWidth 64 := by
  rw [lowOnes, ← BitVec.setWidth_and, BitVec.and_allOnes]

/-- Fields that agree under the mask have the same low bits. -/
theorem extract_eq_of_and_lowOnes {n : Nat} (hn : n ≤ 64) {a a' : BitVec 64} (h : a &&& lowOnes n = a' &&& lowOnes n) :
    a.extractLsb' 0 n = a'.extractLsb' 0 n := by
  rw [← setWidth_extract, ← setWidth_extract] at h
  rw [← extract_setWidth hn (a.extractLsb' 0 n), h, extract_setWidth hn]

/-- The low `n` bits of `A` are bits `64` and up of the word (30_encoding.md R75). -/
theorem extract_fieldA {n : Nat} (hn : n ≤ 64) (w : CommandWord) : (fieldA w).extractLsb' 0 n = w.extractLsb' 64 n := by
  apply BitVec.eq_of_getLsbD_eq
  intro i hi
  simp only [fieldA, BitVec.getLsbD_extractLsb', hi, Nat.zero_add, decide_true, Bool.true_and, show i < 64 by omega]

/-! ## Decoding -/

/-- A decoded word has a zero `RSVD` and the command its opcode selects. -/
theorem decode_eq_ok {w : CommandWord} {i : Instr} :
    decode w = .ok i ↔ fieldRsvd w = 0#24 ∧ decodeOpcode (fieldOpc w) (fieldA w) (fieldB w) = some i := by
  unfold decode
  split
  · simp_all
  · split <;> simp_all

/-- The eleven opcodes of 30_encoding.md R78, as the numbers R79 leaves assigned. -/
theorem opcode_cases (o : BitVec 8) :
    o ∈ [0x01#8, 0x02#8, 0x10#8, 0x11#8, 0x12#8, 0x13#8, 0x20#8, 0x30#8, 0xF0#8, 0xF1#8, 0xFF#8] ∨
      ∀ a b, decodeOpcode o a b = none := by
  by_cases h : o ∈ [0x01#8, 0x02#8, 0x10#8, 0x11#8, 0x12#8, 0x13#8, 0x20#8, 0x30#8, 0xF0#8, 0xF1#8, 0xFF#8]
  · exact .inl h
  · refine .inr fun a b => ?_
    simp only [List.mem_cons, List.not_mem_nil, or_false, not_or] at h
    simp only [decodeOpcode, h, if_false]

/-! ## Well-formedness -/

theorem unsignedRange_toNat {n : Nat} (v : BitVec n) : unsignedRange n v.toNat = true := by
  have := v.isLt
  simp only [unsignedRange, Bool.and_eq_true, decide_eq_true_eq]
  exact ⟨by omega, by exact_mod_cast this⟩

theorem sampleRange_toInt (x : Sample) : sampleRange x.toInt = true := by
  have h1 := x.le_toInt
  have h2 := x.toInt_lt
  simp only [sampleRange, Bool.and_eq_true, decide_eq_true_eq]
  omega

/-- Every command is well formed: its operand types are the widths of 30_encoding.md R75. -/
theorem instr_wellFormed (i : Instr) : i.wellFormed = true := by
  cases i <;>
    simp [Instr.wellFormed, Instr.toAsm, AsmLine.wellFormed, unsignedRange_toNat, sampleRange_toInt]

/-! ## Bytes of a transport (20_memory.md R52) -/

@[simp] theorem bytesOf_length {n : Nat} (w : BitVec n) (count : Nat) : (bytesOf w count).length = count := by
  induction count generalizing w with
  | zero => rfl
  | succ count ih => simp [bytesOf, ih]

/-- Byte `k` is bits `[8k+7 : 8k]`. -/
theorem bytesOf_getElem? {n : Nat} (w : BitVec n) {count k : Nat} (hk : k < count) :
    (bytesOf w count)[k]? = some (w.extractLsb' (8 * k) 8) := by
  induction count generalizing w k with
  | zero => omega
  | succ count ih =>
    cases k with
    | zero => rfl
    | succ k =>
      rw [bytesOf, List.getElem?_cons_succ, ih _ (by omega)]
      congr 1
      apply BitVec.eq_of_toNat_eq
      simp only [BitVec.extractLsb'_toNat, BitVec.toNat_ushiftRight, ← Nat.shiftRight_add]
      rw [show 8 * (k + 1) = 8 + 8 * k by omega]

/-- The bytes of a word are the digits, base 256, of its low bits. -/
theorem numberOfBytes_bytesOf {n : Nat} (w : BitVec n) (count : Nat) :
    numberOfBytes (bytesOf w count) = w.toNat % 2 ^ (8 * count) := by
  induction count generalizing w with
  | zero => simp [bytesOf, numberOfBytes, Nat.mod_one]
  | succ count ih =>
    have e : 2 ^ (8 * (count + 1)) = 256 * 2 ^ (8 * count) := by rw [Nat.mul_succ, pow_add]; ring
    rw [bytesOf, numberOfBytes, ih, e, Nat.mod_mul]
    simp [BitVec.extractLsb'_toNat, Nat.shiftRight_eq_div_pow]

end Sys2Proof
end

