-- ==== Sys2Proof/Laws/Memory.lean ====
section
/-! SUPPORT. The laws of the storage: read after write, and that writing keeps the canonical form. -/

namespace Sys2Proof.Machine

@[simp] theorem Memory.read_nil (i : Nat) : Memory.read [] i = 0#32 := rfl

theorem Memory.read_cons (k : Nat) (u : Cell) (m : Memory) (i : Nat) :
    Memory.read ((k, u) :: m) i = if k = i then u else Memory.read m i := rfl

/-- A cell that no entry lists reads 0. -/
theorem Memory.read_eq_zero_of_not_listed (m : Memory) (i : Nat) (h : ∀ p ∈ m, p.1 ≠ i) : m.read i = 0#32 := by
  induction m with
  | nil => rfl
  | cons p m ih =>
    obtain ⟨k, u⟩ := p
    have hk : k ≠ i := h (k, u) (by simp)
    simp [Memory.read_cons, hk, ih fun q hq => h q (by simp [hq])]

theorem Memory.wf_tail {p : Nat × Cell} {m : Memory} (h : Memory.wf (p :: m)) : Memory.wf m :=
  ⟨(List.pairwise_cons.1 h.1).2, fun q hq => h.2 q (by simp [hq])⟩

/-- In canonical form the tail lists only cells above the first. -/
theorem Memory.lt_of_mem_tail {k : Nat} {u : Cell} {m : Memory} (h : Memory.wf ((k, u) :: m)) :
    ∀ p ∈ m, k < p.1 := fun p hp => (List.pairwise_cons.1 h.1).1 p hp

/-- A write changes the cell it names, and no other. -/
theorem Memory.read_write (m : Memory) (h : m.wf) (i j : Nat) (v : Cell) :
    (m.write i v).read j = if j = i then v else m.read j := by
  induction m with
  | nil =>
    simp only [Memory.write]
    grind [Memory.read_cons, Memory.read_nil]
  | cons p m ih =>
    obtain ⟨k, u⟩ := p
    have unlisted : ∀ n, n ≤ k → Memory.read m n = 0#32 := fun n hn =>
      Memory.read_eq_zero_of_not_listed m n fun q hq => by have := Memory.lt_of_mem_tail h q hq; omega
    have ih := ih (Memory.wf_tail h)
    simp only [Memory.write]
    grind [Memory.read_cons]

@[simp] theorem Memory.read_write_same (m : Memory) (h : m.wf) (i : Nat) (v : Cell) : (m.write i v).read i = v := by
  simp [Memory.read_write m h]

theorem Memory.read_write_other (m : Memory) (h : m.wf) {i j : Nat} (v : Cell) (hj : j ≠ i) :
    (m.write i v).read j = m.read j := by
  simp [Memory.read_write m h, hj]

/-- Every entry after a write is the written one or an old one. -/
theorem Memory.mem_write {m : Memory} {i : Nat} {v : Cell} {p : Nat × Cell} (h : p ∈ m.write i v) :
    (p = (i, v) ∧ v ≠ 0#32) ∨ p ∈ m := by
  induction m with
  | nil =>
    simp only [Memory.write] at h
    split at h <;> simp_all
  | cons q m ih =>
    obtain ⟨k, u⟩ := q
    simp only [Memory.write] at h
    split at h
    · split at h <;> simp_all
    · split at h
      · split at h
        · exact .inr (by simp_all)
        · rcases List.mem_cons.1 h with h | h <;> simp_all
      · rcases List.mem_cons.1 h with h | h
        · simp [h]
        · rcases ih h with h | h
          · exact .inl h
          · exact .inr (by simp [h])

/-- A write keeps the canonical form. -/
theorem Memory.wf_write (m : Memory) (h : m.wf) (i : Nat) (v : Cell) : (m.write i v).wf := by
  induction m with
  | nil =>
    simp only [Memory.write]
    split <;> simp_all [Memory.wf]
  | cons p m ih =>
    obtain ⟨k, u⟩ := p
    have ih := ih (Memory.wf_tail h)
    have above := Memory.lt_of_mem_tail h
    simp only [Memory.write]
    split
    · split
      · exact h
      · rename_i hik hv
        refine ⟨List.pairwise_cons.2 ⟨fun q hq => ?_, h.1⟩, fun q hq => ?_⟩
        · rcases List.mem_cons.1 hq with rfl | hq
          · exact hik
          · exact lt_trans hik (above q hq)
        · rcases List.mem_cons.1 hq with rfl | hq
          · exact hv
          · exact h.2 q hq
    · split
      · split
        · exact Memory.wf_tail h
        · rename_i hik hv
          subst hik
          refine ⟨List.pairwise_cons.2 ⟨fun q hq => above q hq, (Memory.wf_tail h).1⟩, fun q hq => ?_⟩
          rcases List.mem_cons.1 hq with rfl | hq
          · exact hv
          · exact h.2 q (by simp [hq])
      · rename_i hlt hne
        refine ⟨List.pairwise_cons.2 ⟨fun q hq => ?_, ih.1⟩, fun q hq => ?_⟩
        · rcases Memory.mem_write hq with ⟨rfl, -⟩ | hq
          · show k < i
            omega
          · exact above q hq
        · rcases List.mem_cons.1 hq with rfl | hq
          · exact h.2 _ (by simp)
          · exact ih.2 q hq

/-- The loop of writes of 44_control.md R201 keeps the form too. -/
theorem Memory.wf_zeroUpTo (m : Memory) (h : m.wf) (c : Nat) : (m.zeroUpTo c).wf := by
  induction c with
  | zero => exact Memory.wf_write m h 0 0#32
  | succ c ih => exact Memory.wf_write _ ih (c + 1) 0#32

theorem Memory.wf_reset : Memory.wf State.reset.ring.store := by decide

/-- A write to an existing cell lists no cell above the capacity. -/
theorem Memory.within_write {m : Memory} {c : Nat} (h : m.within c) {i : Nat} (hi : i ≤ c) (v : Cell) :
    (m.write i v).within c := fun p hp => by
  rcases Memory.mem_write hp with ⟨rfl, -⟩ | hp
  · exact hi
  · exact h p hp

/-- Canonical memories with the same cells are the same data. -/
theorem Memory.ext_of_read {m m' : Memory} (h : m.wf) (h' : m'.wf) (hr : ∀ i, m.read i = m'.read i) : m = m' := by
  induction m generalizing m' with
  | nil =>
    cases m' with
    | nil => rfl
    | cons p m' =>
      have : p.2 ≠ 0#32 := h'.2 p (by simp)
      have := hr p.1
      grind [Memory.read_cons, Memory.read_nil]
  | cons p m ih =>
    obtain ⟨k, u⟩ := p
    have hu : u ≠ 0#32 := h.2 (k, u) (by simp)
    have low : ∀ n, n ≤ k → Memory.read m n = 0#32 := fun n hn =>
      Memory.read_eq_zero_of_not_listed m n fun q hq => by have := Memory.lt_of_mem_tail h q hq; omega
    cases m' with
    | nil =>
      have := hr k
      grind [Memory.read_cons, Memory.read_nil]
    | cons q m' =>
      obtain ⟨k', u'⟩ := q
      have hu' : u' ≠ 0#32 := h'.2 (k', u') (by simp)
      have low' : ∀ n, n ≤ k' → Memory.read m' n = 0#32 := fun n hn =>
        Memory.read_eq_zero_of_not_listed m' n fun q hq => by have := Memory.lt_of_mem_tail h' q hq; omega
      have hk := hr k
      have hk' := hr k'
      have same : k = k' := by grind [Memory.read_cons]
      subst same
      have tails : ∀ i, Memory.read m i = Memory.read m' i := fun i => by
        have := hr i
        by_cases hi : i ≤ k
        · rw [low i hi, low' i hi]
        · grind [Memory.read_cons]
      rw [ih (Memory.wf_tail h) (Memory.wf_tail h') tails]
      grind [Memory.read_cons]

end Sys2Proof.Machine
end

