-- ==== Sys2Proof/Laws/State.lean ====
section
/-! SUPPORT. One lemma for each field and each operation that writes the state: what it leaves and what it writes. -/

namespace Sys2Proof.Machine

/-! ### `setStore` -/

@[simp] theorem State.setStore_cfg (s : State) (m : Memory) : (s.setStore m).cfg = s.cfg := rfl
@[simp] theorem State.setStore_iir (s : State) (m : Memory) : (s.setStore m).iir = s.iir := rfl
@[simp] theorem State.setStore_port (s : State) (m : Memory) : (s.setStore m).port = s.port := rfl
@[simp] theorem State.setStore_obs (s : State) (m : Memory) : (s.setStore m).obs = s.obs := rfl
@[simp] theorem State.setStore_ring_store (s : State) (m : Memory) : (s.setStore m).ring.store = m := rfl
@[simp] theorem State.setStore_ring_head (s : State) (m : Memory) : (s.setStore m).ring.head = s.ring.head := rfl
@[simp] theorem State.setStore_ring_tail (s : State) (m : Memory) : (s.setStore m).ring.tail = s.ring.tail := rfl
@[simp] theorem State.setStore_ring_N (s : State) (m : Memory) : (s.setStore m).ring.N = s.ring.N := rfl
@[simp] theorem State.setStore_ring_val (s : State) (m : Memory) : (s.setStore m).ring.val = s.ring.val := rfl

/-! ### `setHead` -/

@[simp] theorem State.setHead_cfg (s : State) (i : Nat) : (s.setHead i).cfg = s.cfg := rfl
@[simp] theorem State.setHead_iir (s : State) (i : Nat) : (s.setHead i).iir = s.iir := rfl
@[simp] theorem State.setHead_port (s : State) (i : Nat) : (s.setHead i).port = s.port := rfl
@[simp] theorem State.setHead_obs (s : State) (i : Nat) : (s.setHead i).obs = s.obs := rfl
@[simp] theorem State.setHead_ring_store (s : State) (i : Nat) : (s.setHead i).ring.store = s.ring.store := rfl
@[simp] theorem State.setHead_ring_head (s : State) (i : Nat) : (s.setHead i).ring.head = i := rfl
@[simp] theorem State.setHead_ring_tail (s : State) (i : Nat) : (s.setHead i).ring.tail = s.ring.tail := rfl
@[simp] theorem State.setHead_ring_N (s : State) (i : Nat) : (s.setHead i).ring.N = s.ring.N := rfl
@[simp] theorem State.setHead_ring_val (s : State) (i : Nat) : (s.setHead i).ring.val = s.ring.val := rfl

/-! ### `setTail` -/

@[simp] theorem State.setTail_cfg (s : State) (i : Nat) : (s.setTail i).cfg = s.cfg := rfl
@[simp] theorem State.setTail_iir (s : State) (i : Nat) : (s.setTail i).iir = s.iir := rfl
@[simp] theorem State.setTail_port (s : State) (i : Nat) : (s.setTail i).port = s.port := rfl
@[simp] theorem State.setTail_obs (s : State) (i : Nat) : (s.setTail i).obs = s.obs := rfl
@[simp] theorem State.setTail_ring_store (s : State) (i : Nat) : (s.setTail i).ring.store = s.ring.store := rfl
@[simp] theorem State.setTail_ring_head (s : State) (i : Nat) : (s.setTail i).ring.head = s.ring.head := rfl
@[simp] theorem State.setTail_ring_tail (s : State) (i : Nat) : (s.setTail i).ring.tail = i := rfl
@[simp] theorem State.setTail_ring_N (s : State) (i : Nat) : (s.setTail i).ring.N = s.ring.N := rfl
@[simp] theorem State.setTail_ring_val (s : State) (i : Nat) : (s.setTail i).ring.val = s.ring.val := rfl

/-! ### `setN` -/

@[simp] theorem State.setN_cfg (s : State) (n : Nat) : (s.setN n).cfg = s.cfg := rfl
@[simp] theorem State.setN_iir (s : State) (n : Nat) : (s.setN n).iir = s.iir := rfl
@[simp] theorem State.setN_port (s : State) (n : Nat) : (s.setN n).port = s.port := rfl
@[simp] theorem State.setN_obs (s : State) (n : Nat) : (s.setN n).obs = s.obs := rfl
@[simp] theorem State.setN_ring_store (s : State) (n : Nat) : (s.setN n).ring.store = s.ring.store := rfl
@[simp] theorem State.setN_ring_head (s : State) (n : Nat) : (s.setN n).ring.head = s.ring.head := rfl
@[simp] theorem State.setN_ring_tail (s : State) (n : Nat) : (s.setN n).ring.tail = s.ring.tail := rfl
@[simp] theorem State.setN_ring_N (s : State) (n : Nat) : (s.setN n).ring.N = n := rfl
@[simp] theorem State.setN_ring_val (s : State) (n : Nat) : (s.setN n).ring.val = s.ring.val := rfl

/-! ### `setVal` -/

@[simp] theorem State.setVal_cfg (s : State) (v : Word64) : (s.setVal v).cfg = s.cfg := rfl
@[simp] theorem State.setVal_iir (s : State) (v : Word64) : (s.setVal v).iir = s.iir := rfl
@[simp] theorem State.setVal_port (s : State) (v : Word64) : (s.setVal v).port = s.port := rfl
@[simp] theorem State.setVal_obs (s : State) (v : Word64) : (s.setVal v).obs = s.obs := rfl
@[simp] theorem State.setVal_ring_store (s : State) (v : Word64) : (s.setVal v).ring.store = s.ring.store := rfl
@[simp] theorem State.setVal_ring_head (s : State) (v : Word64) : (s.setVal v).ring.head = s.ring.head := rfl
@[simp] theorem State.setVal_ring_tail (s : State) (v : Word64) : (s.setVal v).ring.tail = s.ring.tail := rfl
@[simp] theorem State.setVal_ring_N (s : State) (v : Word64) : (s.setVal v).ring.N = s.ring.N := rfl
@[simp] theorem State.setVal_ring_val (s : State) (v : Word64) : (s.setVal v).ring.val = v := rfl

/-! ### `setStage1` -/

@[simp] theorem State.setStage1_cfg (s : State) (dx dy : Word64) : (s.setStage1 dx dy).cfg = s.cfg := rfl
@[simp] theorem State.setStage1_ring (s : State) (dx dy : Word64) : (s.setStage1 dx dy).ring = s.ring := rfl
@[simp] theorem State.setStage1_port (s : State) (dx dy : Word64) : (s.setStage1 dx dy).port = s.port := rfl
@[simp] theorem State.setStage1_obs (s : State) (dx dy : Word64) : (s.setStage1 dx dy).obs = s.obs := rfl
@[simp] theorem State.setStage1_iir_dx1 (s : State) (dx dy : Word64) : (s.setStage1 dx dy).iir.dx1 = dx := rfl
@[simp] theorem State.setStage1_iir_dy1 (s : State) (dx dy : Word64) : (s.setStage1 dx dy).iir.dy1 = dy := rfl
@[simp] theorem State.setStage1_iir_dx2 (s : State) (dx dy : Word64) : (s.setStage1 dx dy).iir.dx2 = s.iir.dx2 := rfl
@[simp] theorem State.setStage1_iir_dy2 (s : State) (dx dy : Word64) : (s.setStage1 dx dy).iir.dy2 = s.iir.dy2 := rfl

/-! ### `setStage2` -/

@[simp] theorem State.setStage2_cfg (s : State) (dx dy : Word64) : (s.setStage2 dx dy).cfg = s.cfg := rfl
@[simp] theorem State.setStage2_ring (s : State) (dx dy : Word64) : (s.setStage2 dx dy).ring = s.ring := rfl
@[simp] theorem State.setStage2_port (s : State) (dx dy : Word64) : (s.setStage2 dx dy).port = s.port := rfl
@[simp] theorem State.setStage2_obs (s : State) (dx dy : Word64) : (s.setStage2 dx dy).obs = s.obs := rfl
@[simp] theorem State.setStage2_iir_dx1 (s : State) (dx dy : Word64) : (s.setStage2 dx dy).iir.dx1 = s.iir.dx1 := rfl
@[simp] theorem State.setStage2_iir_dy1 (s : State) (dx dy : Word64) : (s.setStage2 dx dy).iir.dy1 = s.iir.dy1 := rfl
@[simp] theorem State.setStage2_iir_dx2 (s : State) (dx dy : Word64) : (s.setStage2 dx dy).iir.dx2 = dx := rfl
@[simp] theorem State.setStage2_iir_dy2 (s : State) (dx dy : Word64) : (s.setStage2 dx dy).iir.dy2 = dy := rfl

/-! ### `setRsp` -/

@[simp] theorem State.setRsp_cfg (s : State) (r : Option Response) : (s.setRsp r).cfg = s.cfg := rfl
@[simp] theorem State.setRsp_ring (s : State) (r : Option Response) : (s.setRsp r).ring = s.ring := rfl
@[simp] theorem State.setRsp_iir (s : State) (r : Option Response) : (s.setRsp r).iir = s.iir := rfl
@[simp] theorem State.setRsp_obs (s : State) (r : Option Response) : (s.setRsp r).obs = s.obs := rfl
@[simp] theorem State.setRsp_port_inputs (s : State) (r : Option Response) : (s.setRsp r).port.inputs = s.port.inputs := rfl
@[simp] theorem State.setRsp_port_rsp (s : State) (r : Option Response) : (s.setRsp r).port.rsp = r := rfl
@[simp] theorem State.setRsp_port_delivered (s : State) (r : Option Response) : (s.setRsp r).port.delivered = s.port.delivered := rfl

/-! ### `addRecord` -/

@[simp] theorem State.addRecord_cfg (s : State) (v : List Violation) : (s.addRecord v).cfg = s.cfg := rfl
@[simp] theorem State.addRecord_ring (s : State) (v : List Violation) : (s.addRecord v).ring = s.ring := rfl
@[simp] theorem State.addRecord_iir (s : State) (v : List Violation) : (s.addRecord v).iir = s.iir := rfl
@[simp] theorem State.addRecord_port (s : State) (v : List Violation) : (s.addRecord v).port = s.port := rfl
@[simp] theorem State.addRecord_obs_record (s : State) (v : List Violation) : (s.addRecord v).obs.record = s.obs.record ++ v := rfl
@[simp] theorem State.addRecord_obs_pushes (s : State) (v : List Violation) : (s.addRecord v).obs.pushes = s.obs.pushes := rfl
@[simp] theorem State.addRecord_obs_pops (s : State) (v : List Violation) : (s.addRecord v).obs.pops = s.obs.pops := rfl

/-! ### `countPush` -/

@[simp] theorem State.countPush_cfg (s : State) : (s.countPush).cfg = s.cfg := rfl
@[simp] theorem State.countPush_ring (s : State) : (s.countPush).ring = s.ring := rfl
@[simp] theorem State.countPush_iir (s : State) : (s.countPush).iir = s.iir := rfl
@[simp] theorem State.countPush_port (s : State) : (s.countPush).port = s.port := rfl
@[simp] theorem State.countPush_obs_record (s : State) : (s.countPush).obs.record = s.obs.record := rfl
@[simp] theorem State.countPush_obs_pushes (s : State) : (s.countPush).obs.pushes = s.obs.pushes + 1 := rfl
@[simp] theorem State.countPush_obs_pops (s : State) : (s.countPush).obs.pops = s.obs.pops := rfl

/-! ### `countPop` -/

@[simp] theorem State.countPop_cfg (s : State) : (s.countPop).cfg = s.cfg := rfl
@[simp] theorem State.countPop_ring (s : State) : (s.countPop).ring = s.ring := rfl
@[simp] theorem State.countPop_iir (s : State) : (s.countPop).iir = s.iir := rfl
@[simp] theorem State.countPop_port (s : State) : (s.countPop).port = s.port := rfl
@[simp] theorem State.countPop_obs_record (s : State) : (s.countPop).obs.record = s.obs.record ++ (if s.obs.pops < s.obs.pushes then [] else [.popEmpty]) := rfl
@[simp] theorem State.countPop_obs_pushes (s : State) : (s.countPop).obs.pushes = s.obs.pushes := rfl
@[simp] theorem State.countPop_obs_pops (s : State) : (s.countPop).obs.pops = s.obs.pops + 1 := rfl

/-! ### `clearRing` -/

@[simp] theorem State.clearRing_cfg (s : State) : (s.clearRing).cfg = s.cfg := rfl
@[simp] theorem State.clearRing_iir (s : State) : (s.clearRing).iir = s.iir := rfl
@[simp] theorem State.clearRing_port (s : State) : (s.clearRing).port = s.port := rfl
@[simp] theorem State.clearRing_ring (s : State) : (s.clearRing).ring = RingBlk.reset s.cfg.capacity := rfl
@[simp] theorem State.clearRing_obs_record (s : State) : (s.clearRing).obs.record = s.obs.record := rfl
@[simp] theorem State.clearRing_obs_pushes (s : State) : (s.clearRing).obs.pushes = 0 := rfl
@[simp] theorem State.clearRing_obs_pops (s : State) : (s.clearRing).obs.pops = 0 := rfl

/-! ### `clearIir` -/

@[simp] theorem State.clearIir_cfg (s : State) : (s.clearIir).cfg = s.cfg := rfl
@[simp] theorem State.clearIir_ring (s : State) : (s.clearIir).ring = s.ring := rfl
@[simp] theorem State.clearIir_port (s : State) : (s.clearIir).port = s.port := rfl
@[simp] theorem State.clearIir_obs (s : State) : (s.clearIir).obs = s.obs := rfl
@[simp] theorem State.clearIir_iir (s : State) : (s.clearIir).iir = IirLine.reset := rfl

/-! ### `respond` and `raiseError` -/

@[simp] theorem respond_cfg (st : Status) (r : Word64) (s : State) : (respond st r s).cfg = s.cfg := rfl
@[simp] theorem raiseError_cfg (st : Status) (s : State) : (raiseError st s).cfg = s.cfg := rfl
@[simp] theorem respond_ring (st : Status) (r : Word64) (s : State) : (respond st r s).ring = s.ring := rfl
@[simp] theorem raiseError_ring (st : Status) (s : State) : (raiseError st s).ring = s.ring := rfl
@[simp] theorem respond_iir (st : Status) (r : Word64) (s : State) : (respond st r s).iir = s.iir := rfl
@[simp] theorem raiseError_iir (st : Status) (s : State) : (raiseError st s).iir = s.iir := rfl
@[simp] theorem respond_port_inputs (st : Status) (r : Word64) (s : State) : (respond st r s).port.inputs = s.port.inputs := rfl
@[simp] theorem raiseError_port_inputs (st : Status) (s : State) : (raiseError st s).port.inputs = s.port.inputs := rfl
@[simp] theorem respond_port_rsp (st : Status) (r : Word64) (s : State) : (respond st r s).port.rsp = some { status := st, res := r } := rfl
@[simp] theorem raiseError_port_rsp (st : Status) (s : State) : (raiseError st s).port.rsp = some { status := st, res := 0#64 } := rfl
@[simp] theorem respond_port_delivered (st : Status) (r : Word64) (s : State) : (respond st r s).port.delivered = s.port.delivered := rfl
@[simp] theorem raiseError_port_delivered (st : Status) (s : State) : (raiseError st s).port.delivered = s.port.delivered := rfl
@[simp] theorem respond_obs_record (st : Status) (r : Word64) (s : State) : (respond st r s).obs.record = s.obs.record ++ st.violation := rfl
@[simp] theorem raiseError_obs_record (st : Status) (s : State) : (raiseError st s).obs.record = s.obs.record ++ st.violation := rfl
@[simp] theorem respond_obs_pushes (st : Status) (r : Word64) (s : State) : (respond st r s).obs.pushes = s.obs.pushes := rfl
@[simp] theorem raiseError_obs_pushes (st : Status) (s : State) : (raiseError st s).obs.pushes = s.obs.pushes := rfl
@[simp] theorem respond_obs_pops (st : Status) (r : Word64) (s : State) : (respond st r s).obs.pops = s.obs.pops := rfl
@[simp] theorem raiseError_obs_pops (st : Status) (s : State) : (raiseError st s).obs.pops = s.obs.pops := rfl

/-- An `OK` response leaves the observer's record. -/
@[simp] theorem respond_ok_obs (r : Word64) (s : State) : (respond .ok r s).obs = s.obs := by
  simp [respond, Status.violation, State.addRecord]

/-! ### `deliver` and `resetBlock` -/

@[simp] theorem deliver_cfg (s : State) : (deliver s).cfg = s.cfg := rfl
@[simp] theorem deliver_ring (s : State) : (deliver s).ring = s.ring := rfl
@[simp] theorem deliver_iir (s : State) : (deliver s).iir = s.iir := rfl
@[simp] theorem deliver_obs (s : State) : (deliver s).obs = s.obs := rfl
@[simp] theorem deliver_port_inputs (s : State) : (deliver s).port.inputs = s.port.inputs := rfl
@[simp] theorem deliver_port_rsp (s : State) : (deliver s).port.rsp = none := rfl
@[simp] theorem deliver_port_delivered (s : State) : (deliver s).port.delivered = s.port.delivered ++ s.port.rsp.toList := rfl
@[simp] theorem resetBlock_cfg (s : State) : (resetBlock s).cfg = s.cfg := rfl
@[simp] theorem resetBlock_ring (s : State) : (resetBlock s).ring = RingBlk.reset s.cfg.capacity := rfl
@[simp] theorem resetBlock_iir (s : State) : (resetBlock s).iir = IirLine.reset := rfl
@[simp] theorem resetBlock_port_inputs (s : State) : (resetBlock s).port.inputs = s.port.inputs := rfl
@[simp] theorem resetBlock_port_rsp (s : State) : (resetBlock s).port.rsp = none := rfl
@[simp] theorem resetBlock_port_delivered (s : State) : (resetBlock s).port.delivered = s.port.delivered := rfl
@[simp] theorem resetBlock_obs_record (s : State) : (resetBlock s).obs.record = s.obs.record := rfl
@[simp] theorem resetBlock_obs_pushes (s : State) : (resetBlock s).obs.pushes = 0 := rfl
@[simp] theorem resetBlock_obs_pops (s : State) : (resetBlock s).obs.pops = 0 := rfl

/-! ### The reset values -/

@[simp] theorem RingBlk.reset_store (c : Nat) : (RingBlk.reset c).store = [] := rfl
@[simp] theorem RingBlk.reset_head (c : Nat) : (RingBlk.reset c).head = 0 := rfl
@[simp] theorem RingBlk.reset_tail (c : Nat) : (RingBlk.reset c).tail = 0 := rfl
@[simp] theorem RingBlk.reset_N (c : Nat) : (RingBlk.reset c).N = c := rfl
@[simp] theorem RingBlk.reset_val (c : Nat) : (RingBlk.reset c).val = 0#64 := rfl
@[simp] theorem IirLine.reset_dx1 : IirLine.reset.dx1 = 0#64 := rfl
@[simp] theorem IirLine.reset_dy1 : IirLine.reset.dy1 = 0#64 := rfl
@[simp] theorem IirLine.reset_dx2 : IirLine.reset.dx2 = 0#64 := rfl
@[simp] theorem IirLine.reset_dy2 : IirLine.reset.dy2 = 0#64 := rfl
@[simp] theorem State.resetWith_cfg (cfg : Config) : (State.resetWith cfg).cfg = cfg := rfl
@[simp] theorem State.resetWith_ring (cfg : Config) : (State.resetWith cfg).ring = RingBlk.reset cfg.capacity := rfl
@[simp] theorem State.resetWith_iir (cfg : Config) : (State.resetWith cfg).iir = IirLine.reset := rfl

end Sys2Proof.Machine
end

