-- ==== Sys2Proof/Laws/Ops.lean ====
section
/-! SUPPORT. One lemma for each shared operation that says everything it can do. -/

namespace Sys2Proof.Machine

/-! ## The index successor -/

theorem adv_of_lt {n i : Nat} (h : i < n) : adv n i = i + 1 := by simp [adv]; omega

theorem adv_of_ge {n i : Nat} (h : n ≤ i) : adv n i = 0 := by simp [adv]; omega

/-- Whatever the index, its successor lies in the window (41_ring_buffer.md R121). -/
theorem adv_le (n i : Nat) : adv n i ≤ n := by simp only [adv]; split <;> omega

/-- Inside the window the successor is addition modulo `N + 1` (41_ring_buffer.md R121). -/
theorem adv_eq_mod {n i : Nat} (h : i ≤ n) : adv n i = (i + 1) % (n + 1) := by
  rcases Nat.lt_or_eq_of_le h with h | rfl
  · rw [adv_of_lt h, Nat.mod_eq_of_lt (by omega)]
  · rw [adv_of_ge (le_refl i), Nat.mod_self]

/-- In a window of at least two positions an index is not its own successor. -/
theorem adv_ne_self {n i : Nat} (h : 1 ≤ n) : adv n i ≠ i := by
  simp only [adv]; split <;> omega

/-! ## Storage access -/

theorem memRead_ok {i : Nat} {s : State} (h : i ≤ s.cfg.capacity) : memRead i s = .ok (s.ring.store.read i) := by
  simp [memRead, h]

theorem memWrite_ok {i : Nat} {s : State} (v : Cell) (h : i ≤ s.cfg.capacity) :
    memWrite i v s = .ok (s.setStore (s.ring.store.write i v)) := by
  simp [memWrite, h]

theorem memRead_error {i : Nat} {s : State} (h : ¬ i ≤ s.cfg.capacity) : memRead i s = .error (.storageIndex i) := by
  simp [memRead, h]

theorem memWrite_error {i : Nat} {s : State} (v : Cell) (h : ¬ i ≤ s.cfg.capacity) :
    memWrite i v s = .error (.storageIndex i) := by
  simp [memWrite, h]

/-! ## The ring-buffer steps -/

/-- The state a push leaves. -/
def pushed (v : Cell) (s : State) : State :=
  ((s.setStore (s.ring.store.write s.ring.tail v)).setTail (adv s.ring.N s.ring.tail)).countPush

/-- The state a pop leaves. -/
def popped (s : State) : State := (s.setHead (adv s.ring.N s.ring.head)).countPop

theorem push_ok (v : Cell) {s : State} (h : s.ring.tail ≤ s.cfg.capacity) : push v s = .ok (pushed v s) := by
  simp [push, memWrite_ok v h, pushed, Bind.bind, Except.bind, Pure.pure, Except.pure]

theorem push_error (v : Cell) {s : State} (h : ¬ s.ring.tail ≤ s.cfg.capacity) :
    push v s = .error (.storageIndex s.ring.tail) := by
  simp [push, memWrite_error v h, Bind.bind, Except.bind]

theorem pop_ok {s : State} (h : s.ring.head ≤ s.cfg.capacity) :
    pop s = .ok (s.ring.store.read s.ring.head, popped s) := by
  simp [pop, memRead_ok h, popped, Bind.bind, Except.bind, Pure.pure, Except.pure]

theorem pop_error {s : State} (h : ¬ s.ring.head ≤ s.cfg.capacity) :
    pop s = .error (.storageIndex s.ring.head) := by
  simp [pop, memRead_error h, Bind.bind, Except.bind]

@[simp] theorem pushed_cfg (v : Cell) (s : State) : (pushed v s).cfg = s.cfg := rfl
@[simp] theorem pushed_iir (v : Cell) (s : State) : (pushed v s).iir = s.iir := rfl
@[simp] theorem pushed_port (v : Cell) (s : State) : (pushed v s).port = s.port := rfl
@[simp] theorem pushed_store (v : Cell) (s : State) : (pushed v s).ring.store = s.ring.store.write s.ring.tail v := rfl
@[simp] theorem pushed_head (v : Cell) (s : State) : (pushed v s).ring.head = s.ring.head := rfl
@[simp] theorem pushed_tail (v : Cell) (s : State) : (pushed v s).ring.tail = adv s.ring.N s.ring.tail := rfl
@[simp] theorem pushed_N (v : Cell) (s : State) : (pushed v s).ring.N = s.ring.N := rfl
@[simp] theorem pushed_val (v : Cell) (s : State) : (pushed v s).ring.val = s.ring.val := rfl
@[simp] theorem pushed_record (v : Cell) (s : State) : (pushed v s).obs.record = s.obs.record := rfl
@[simp] theorem pushed_pushes (v : Cell) (s : State) : (pushed v s).obs.pushes = s.obs.pushes + 1 := rfl
@[simp] theorem pushed_pops (v : Cell) (s : State) : (pushed v s).obs.pops = s.obs.pops := rfl
@[simp] theorem popped_cfg (s : State) : (popped s).cfg = s.cfg := rfl
@[simp] theorem popped_iir (s : State) : (popped s).iir = s.iir := rfl
@[simp] theorem popped_port (s : State) : (popped s).port = s.port := rfl
@[simp] theorem popped_store (s : State) : (popped s).ring.store = s.ring.store := rfl
@[simp] theorem popped_head (s : State) : (popped s).ring.head = adv s.ring.N s.ring.head := rfl
@[simp] theorem popped_tail (s : State) : (popped s).ring.tail = s.ring.tail := rfl
@[simp] theorem popped_N (s : State) : (popped s).ring.N = s.ring.N := rfl
@[simp] theorem popped_val (s : State) : (popped s).ring.val = s.ring.val := rfl
@[simp] theorem popped_record (s : State) : (popped s).obs.record =
    s.obs.record ++ (if s.obs.pops < s.obs.pushes then [] else [.popEmpty]) := rfl
@[simp] theorem popped_pushes (s : State) : (popped s).obs.pushes = s.obs.pushes := rfl
@[simp] theorem popped_pops (s : State) : (popped s).obs.pops = s.obs.pops + 1 := rfl

/-- What `push_pop` answers on a push to an existing cell, if the cell it then evicts, if any, exists: the evicted cell when the push
brought `tail` onto `head`, otherwise 0 (41_ring_buffer.md R124). -/
theorem pushPop_ok (v : Cell) {s : State} (ht : s.ring.tail ≤ s.cfg.capacity)
    (hh : adv s.ring.N s.ring.tail = s.ring.head → s.ring.head ≤ s.cfg.capacity) :
    pushPop v s = .ok (if adv s.ring.N s.ring.tail = s.ring.head
      then ((s.ring.store.write s.ring.tail v).read s.ring.head, popped (pushed v s)) else (0#32, pushed v s)) := by
  simp only [pushPop, push_ok v ht, Bind.bind, Except.bind]
  by_cases h : (pushed v s).ring.tail = (pushed v s).ring.head
  · rw [if_pos h, if_pos (by simpa using h), pop_ok (by simpa using hh (by simpa using h))]
    rfl
  · rw [if_neg h, if_neg (by simpa using h)]
    rfl

theorem pushPop_error_head (v : Cell) {s : State} (ht : s.ring.tail ≤ s.cfg.capacity)
    (he : adv s.ring.N s.ring.tail = s.ring.head) (hh : ¬ s.ring.head ≤ s.cfg.capacity) :
    pushPop v s = .error (.storageIndex s.ring.head) := by
  simp only [pushPop, push_ok v ht, Bind.bind, Except.bind]
  rw [if_pos (by simpa using he), pop_error (by simpa using hh)]
  rfl

theorem pushPop_error (v : Cell) {s : State} (ht : ¬ s.ring.tail ≤ s.cfg.capacity) :
    pushPop v s = .error (.storageIndex s.ring.tail) := by
  simp [pushPop, push_error v ht, Bind.bind, Except.bind]

/-! ## Completing -/

@[simp] theorem complete_ok (s : State) : complete (.ok s) = .next s := rfl
@[simp] theorem complete_error (f : Fault) : complete (.error f) = .fault f := rfl

end Sys2Proof.Machine
end

