-- ==== Sys2Proof/Laws/Exec.lean ====
section
/-! SUPPORT. One lemma for each command that says what it answers, and one that says what a step can do. -/

namespace Sys2Proof.Machine

theorem execRbPush_eq (v : Cell) {s : State} (h : s.ring.tail ≤ s.cfg.capacity) :
    execRbPush v s = .next (respond .ok 0#64 (pushed v s)) := by
  simp [execRbPush, push_ok v h, Bind.bind, Except.bind, Pure.pure, Except.pure]

theorem execRbPop_eq {s : State} (h : s.ring.head ≤ s.cfg.capacity) :
    execRbPop s = .next (respond .ok ((s.ring.store.read s.ring.head).setWidth 64) (popped s)) := by
  simp [execRbPop, pop_ok h, Bind.bind, Except.bind, Pure.pure, Except.pure]

theorem execRbPushPop_eq (v : Cell) {s : State} (ht : s.ring.tail ≤ s.cfg.capacity)
    (hh : adv s.ring.N s.ring.tail = s.ring.head → s.ring.head ≤ s.cfg.capacity) :
    execRbPushPop v s = .next (if adv s.ring.N s.ring.tail = s.ring.head
      then respond .ok (((s.ring.store.write s.ring.tail v).read s.ring.head).setWidth 64) (popped (pushed v s))
      else respond .ok 0#64 (pushed v s)) := by
  simp only [execRbPushPop, pushPop_ok v ht hh, Bind.bind, Except.bind]
  split <;> simp [Pure.pure, Except.pure]

/-- The window-size precondition of 42_block_rms.md R153. -/
abbrev windowFails (cfg : Config) (freq : BitVec 32) : Prop :=
  freq = 0#32 ∨ windowSize cfg freq = 0 ∨ windowSize cfg freq > cfg.capacity

theorem execRmsBlock_fails (x : Sample) {freq : BitVec 32} {s : State} (h : windowFails s.cfg freq) :
    execRmsBlock x freq s = .next (raiseError .size s) := by
  simp only [execRmsBlock]
  split
  · rfl
  · rw [if_pos (by rcases h with h | h <;> simp_all)]

/-- The state and the evicted value of step 3 of 42_block_rms.md R152. -/
theorem blockUpdate_ok (sq : Cell) {s : State} (ht : s.ring.tail ≤ s.cfg.capacity)
    (hh : adv s.ring.N s.ring.tail = s.ring.head → s.ring.head ≤ s.cfg.capacity) :
    blockUpdate sq s = .ok (if adv s.ring.N s.ring.tail = s.ring.head
      then (popped (pushed sq (s.setVal (s.ring.val + sq.setWidth 64)))).setVal
        (s.ring.val + sq.setWidth 64 - ((s.ring.store.write s.ring.tail sq).read s.ring.head).setWidth 64)
      else (pushed sq (s.setVal (s.ring.val + sq.setWidth 64))).setVal (s.ring.val + sq.setWidth 64 - 0#64)) := by
  have e := pushPop_ok sq (s := s.setVal (s.ring.val + sq.setWidth 64)) ht hh
  by_cases h : adv s.ring.N s.ring.tail = s.ring.head
  · rw [if_pos (by simpa using h)] at e
    rw [if_pos h]
    simp only [blockUpdate, e, Bind.bind, Except.bind]
    rfl
  · rw [if_neg (by simpa using h)] at e
    rw [if_neg h]
    simp only [blockUpdate, e, Bind.bind, Except.bind]
    rfl

theorem execRmsBlock_eq (x : Sample) {freq : BitVec 32} {s : State} (h : ¬ windowFails s.cfg freq) :
    execRmsBlock x freq s = complete ((blockUpdate (squareCell x) (s.setN (windowSize s.cfg freq))).map fun t =>
      respond .ok (blockResult (windowSize s.cfg freq) t) t) := by
  simp only [windowFails, not_or] at h
  simp only [execRmsBlock, if_neg h.1]
  rw [if_neg (by simp_all)]
  simp only [Bind.bind, Except.bind]
  cases blockUpdate (squareCell x) (s.setN (windowSize s.cfg freq)) <;> rfl

/-- The state step 3 of 42_block_rms.md R152 leaves in a window of length `size`. -/
def blockUpdated (size : Nat) (sq : Cell) (s : State) : State :=
  let s := s.setN size
  if adv size s.ring.tail = s.ring.head
  then (popped (pushed sq (s.setVal (s.ring.val + sq.setWidth 64)))).setVal
    (s.ring.val + sq.setWidth 64 - ((s.ring.store.write s.ring.tail sq).read s.ring.head).setWidth 64)
  else (pushed sq (s.setVal (s.ring.val + sq.setWidth 64))).setVal (s.ring.val + sq.setWidth 64 - 0#64)

/-- `RMS_BLOCK` on a push that brings `tail` onto `head`. -/
theorem blockUpdated_evict {size : Nat} (sq : Cell) {s : State} (h : adv size s.ring.tail = s.ring.head) :
    blockUpdated size sq s = (popped (pushed sq ((s.setN size).setVal (s.ring.val + sq.setWidth 64)))).setVal
      (s.ring.val + sq.setWidth 64 - ((s.ring.store.write s.ring.tail sq).read s.ring.head).setWidth 64) := if_pos h

/-- `RMS_BLOCK` on a push that does not. -/
theorem blockUpdated_noEvict {size : Nat} (sq : Cell) {s : State} (h : adv size s.ring.tail ≠ s.ring.head) :
    blockUpdated size sq s = (pushed sq ((s.setN size).setVal (s.ring.val + sq.setWidth 64))).setVal
      (s.ring.val + sq.setWidth 64) := by
  rw [show s.ring.val + sq.setWidth 64 = s.ring.val + sq.setWidth 64 - 0#64 by simp]
  exact (if_neg h).trans (by simp)

/-- What a successful `RMS_BLOCK` answers: an evicted cell always exists, since the index the push advanced to lies in the window. -/
theorem execRmsBlock_ok (x : Sample) {freq : BitVec 32} {s : State} (h : ¬ windowFails s.cfg freq)
    (ht : s.ring.tail ≤ s.cfg.capacity) :
    execRmsBlock x freq s = .next (respond .ok
      (blockResult (windowSize s.cfg freq) (blockUpdated (windowSize s.cfg freq) (squareCell x) s))
      (blockUpdated (windowSize s.cfg freq) (squareCell x) s)) := by
  have hC : windowSize s.cfg freq ≤ s.cfg.capacity := by simp only [windowFails, not_or] at h; omega
  rw [execRmsBlock_eq x h, blockUpdate_ok (s := s.setN (windowSize s.cfg freq)) _ ht fun e => by
    have := adv_le (windowSize s.cfg freq) s.ring.tail
    simp only [State.setN_ring_N, State.setN_ring_tail, State.setN_ring_head, State.setN_cfg] at e ⊢
    omega]
  rfl

theorem execRmsBlock_fault (x : Sample) {freq : BitVec 32} {s : State} (h : ¬ windowFails s.cfg freq)
    (ht : ¬ s.ring.tail ≤ s.cfg.capacity) : execRmsBlock x freq s = .fault (.storageIndex s.ring.tail) := by
  have e := pushPop_error (squareCell x)
    (s := (s.setN (windowSize s.cfg freq)).setVal (s.ring.val + (squareCell x).setWidth 64)) ht
  rw [execRmsBlock_eq x h]
  simp only [blockUpdate, Bind.bind, Except.bind]
  rw [show (s.setN (windowSize s.cfg freq)).ring.val = s.ring.val from rfl, e]
  rfl

@[simp] theorem rspStatus_respond (st : Status) (r : Word64) (s : State) : rspStatus (respond st r s) = some st := rfl

@[simp] theorem rspStatus_raiseError (st : Status) (s : State) : rspStatus (raiseError st s) = some st := rfl

/-- What a command can do when it answers a next state: one case for each, `RB_PUSH_POP` and `RMS_BLOCK` in two. -/
theorem exec_cases {i : Instr} {s t : State} (h : exec i s = .next t) :
  (∃ x, i = .isqrtWide x ∧ t = respond .ok ((isqrtWide x).setWidth 64) s) ∨
  (∃ x, i = .isqrtNarrow x ∧ t = respond .ok ((isqrtNarrow x).setWidth 64) s) ∨
  (∃ v, i = .rbPush v ∧ s.ring.tail ≤ s.cfg.capacity ∧ t = respond .ok 0#64 (pushed v s)) ∨
  (i = .rbPop ∧ s.ring.head ≤ s.cfg.capacity ∧ t = respond .ok ((s.ring.store.read s.ring.head).setWidth 64) (popped s)) ∨
  (∃ v, i = .rbPushPop v ∧ s.ring.tail ≤ s.cfg.capacity ∧ adv s.ring.N s.ring.tail = s.ring.head ∧ s.ring.head ≤ s.cfg.capacity ∧
     t = respond .ok (((s.ring.store.write s.ring.tail v).read s.ring.head).setWidth 64) (popped (pushed v s))) ∨
  (∃ v, i = .rbPushPop v ∧ s.ring.tail ≤ s.cfg.capacity ∧ adv s.ring.N s.ring.tail ≠ s.ring.head ∧
     t = respond .ok 0#64 (pushed v s)) ∨
  (∃ n, i = .rbSetSize n ∧ ((n.toNat = 0 ∨ n.toNat > s.cfg.capacity) ∧ t = respond .ok 0#64 s ∨
     1 ≤ n.toNat ∧ n.toNat ≤ s.cfg.capacity ∧ t = respond .ok 1#64 (s.setN n.toNat))) ∨
  (∃ x f, i = .rmsBlock x f ∧ windowFails s.cfg f ∧ t = raiseError .size s) ∨
  (∃ x f, i = .rmsBlock x f ∧ ¬ windowFails s.cfg f ∧ s.ring.tail ≤ s.cfg.capacity ∧ t = respond .ok
      (blockResult (windowSize s.cfg f) (blockUpdated (windowSize s.cfg f) (squareCell x) s))
      (blockUpdated (windowSize s.cfg f) (squareCell x) s)) ∨
  (∃ x, i = .rmsEx x ∧ execRmsEx x s = .next t) ∨
  (i = .clrBlock ∧ t = respond .ok 0#64 s.clearRing) ∨
  (i = .clrEx ∧ t = respond .ok 0#64 s.clearIir) ∨
  (i = .clrAll ∧ t = respond .ok 0#64 s.clearRing.clearIir) := by
  cases i <;> simp only [exec] at h
  case isqrtWide x => left; cases h; exact ⟨_, rfl, rfl⟩
  case isqrtNarrow x => right; left; cases h; exact ⟨_, rfl, rfl⟩
  case rbPush v =>
    by_cases ht : s.ring.tail ≤ s.cfg.capacity
    · rw [execRbPush_eq v ht] at h; cases h; simp [ht]
    · simp [execRbPush, push_error v ht, Bind.bind, Except.bind] at h
  case rbPop =>
    by_cases ht : s.ring.head ≤ s.cfg.capacity
    · rw [execRbPop_eq ht] at h; cases h; simp [ht]
    · simp [execRbPop, pop_error ht, Bind.bind, Except.bind] at h
  case rbPushPop v =>
    by_cases ht : s.ring.tail ≤ s.cfg.capacity
    · by_cases he : adv s.ring.N s.ring.tail = s.ring.head
      · by_cases hh : s.ring.head ≤ s.cfg.capacity
        · rw [execRbPushPop_eq v ht (fun _ => hh), if_pos he] at h; cases h; simp [ht, hh, he]
        · simp [execRbPushPop, pushPop_error_head v ht he hh, Bind.bind, Except.bind] at h
      · rw [execRbPushPop_eq v ht (fun e => absurd e he), if_neg he] at h; cases h; simp [ht, he]
    · simp [execRbPushPop, pushPop_error v ht, Bind.bind, Except.bind] at h
  case rbSetSize n =>
    by_cases hn : n.toNat = 0 ∨ n.toNat > s.cfg.capacity
    · simp only [execRbSetSize] at h; rw [if_pos hn] at h; cases h; simp; left; simpa using hn
    · simp only [execRbSetSize] at h; rw [if_neg hn] at h; cases h; simp; omega
  case rmsBlock x f =>
    by_cases hw : windowFails s.cfg f
    · rw [execRmsBlock_fails x hw] at h; cases h; right;right;right;right;right;right;right;left; exact ⟨_, _, rfl, hw, rfl⟩
    · by_cases ht : s.ring.tail ≤ s.cfg.capacity
      · rw [execRmsBlock_ok x hw ht] at h; cases h
        right;right;right;right;right;right;right;right;left; exact ⟨_, _, rfl, hw, ht, rfl⟩
      · rw [execRmsBlock_fault x hw ht] at h; cases h
  case rmsEx x => right;right;right;right;right;right;right;right;right;left; exact ⟨_, rfl, h⟩
  all_goals cases h; simp

/-- What a step can do when it answers a next state: nothing (no port action left), or one edge that resets, delivers, performs a
command word, or transfers nothing. -/
theorem step_cases {s t : State} (h : step s = .next t) :
    configLegal s.cfg = true ∧
    ((s.port.inputs = [] ∧ t = s) ∨
     ∃ e rest, s.port.inputs = e :: rest ∧
      let s1 : State := { s with port := { s.port with inputs := rest } }
      ((e.rst = true ∧ t = resetBlock s1) ∨
       (e.rst = false ∧ s.port.rsp.isSome ∧ e.rspReady = true ∧ t = deliver s1) ∨
       (e.rst = false ∧ s.port.rsp = none ∧ ∃ w, e.cmd = some w ∧ perform w s1 = .next t) ∨
       (e.rst = false ∧ t = s1))) := by
  unfold step at h
  split at h
  · rename_i hl
    refine ⟨hl, ?_⟩
    unfold nextEdge at h
    split at h
    · rename_i hi
      exact .inl ⟨hi, by simpa using h.symm⟩
    · rename_i e rest hi
      refine .inr ⟨e, rest, hi, ?_⟩
      simp only [clockEdge] at h
      cases hr : e.rst with
      | true => left; rw [hr] at h; exact ⟨rfl, by simpa using h.symm⟩
      | false =>
        right
        simp only [hr, rspValid, cmdReady, Bool.false_eq_true, if_false] at h
        split at h
        · rename_i hv
          simp at hv
          exact .inl ⟨rfl, hv.1, hv.2, by simpa using h.symm⟩
        · right
          split at h
          · rename_i w hw
            split at h
            · rename_i hc
              simp at hc
              exact .inl ⟨rfl, hc, w, hw, h⟩
            · exact .inr ⟨rfl, by simpa using h.symm⟩
          · exact .inr ⟨rfl, by simpa using h.symm⟩
  · simp at h

end Sys2Proof.Machine
end

