-- ==== Sys2Proof/Laws/Operands.lean ====
section
/-! SUPPORT. One lemma for each value computed from an operand: the integer it stands for. -/

namespace Sys2Proof.Machine

/-- The square of a 16-bit sample (42_block_rms.md R154). -/
theorem sample_square_bound (x : Sample) : 0 ≤ x.toInt * x.toInt ∧ x.toInt * x.toInt ≤ 2 ^ 30 := by
  have h1 := BitVec.le_toInt x
  have h2 := BitVec.toInt_lt (x := x)
  norm_num at h1 h2
  exact ⟨mul_self_nonneg _, by norm_num; nlinarith⟩

/-- The pushed square is exact (42_block_rms.md R154). -/
theorem squareCell_toNat (x : Sample) : (squareCell x).toNat = (x.toInt * x.toInt).toNat := by
  have := sample_square_bound x
  simp only [squareCell, BitVec.toNat_ofInt]
  rw [Int.emod_eq_of_lt] <;> omega

/-- The pushed square, widened, is the square reduced to 64 bits. -/
theorem squareCell_setWidth (x : Sample) : (squareCell x).setWidth 64 = BitVec.ofInt 64 (x.toInt * x.toInt) := by
  have := sample_square_bound x
  apply BitVec.eq_of_toNat_eq
  rw [BitVec.toNat_setWidth, squareCell_toNat, BitVec.toNat_ofInt, Int.emod_eq_of_lt (by omega) (by omega),
    Nat.mod_eq_of_lt (by omega)]

/-- The filter input is exact (43_iir_rms.md R180). -/
theorem squareWide_toInt (x : Sample) : (squareWide x).toInt = x.toInt * x.toInt := by
  have := sample_square_bound x
  simp only [squareWide, s64, BitVec.toInt_ofInt]
  rw [Int.bmod_eq_of_le] <;> omega

/-- `s64` leaves a value of its range as it is. -/
theorem s64_toInt {v : Int} (h1 : -2 ^ 63 ≤ v) (h2 : v < 2 ^ 63) : (s64 v).toInt = v := by
  simp only [s64, BitVec.toInt_ofInt]
  rw [Int.bmod_eq_of_le] <;> omega

/-- `sat32u` clamps to `[0, 2^32 - 1]` (43_iir_rms.md R181). -/
theorem sat32u_toNat (v : Int) : (sat32u v).toNat = (max 0 (min v (2 ^ 32 - 1))).toNat := by
  unfold sat32u
  split
  · simp; omega
  · split
    · rw [BitVec.toNat_allOnes]; omega
    · rw [BitVec.toNat_ofInt, Int.emod_eq_of_lt (by omega) (by omega)]; omega

/-- A zero frequency, as the operand and as a number. -/
theorem freq_toNat_eq_zero (freq : BitVec 32) : freq.toNat = 0 ↔ freq = 0#32 := by
  rw [← BitVec.toNat_inj]; simp

end Sys2Proof.Machine
end

