-- ==== Sys2Proof/Laws/PerInstr.lean ====
section
/-! SUPPORT. The families of statements made command by command. `Fields`: the word the assembler writes for a command has its opcode
(30_encoding.md R78), a zero `RSVD`, and a 0 in every bit the command does not read (30_encoding.md R82). -/

namespace Sys2Proof.Laws.Fields

/-- The encoded word's `OPC` and `RSVD` fields, and its unread bits. -/
def Statement (i : Instr) : Prop :=
  fieldOpc (encode i) = opcode i ∧ fieldRsvd (encode i) = 0#24 ∧ encode i &&& readBits i = encode i

/-- The three parts, from the fields and the masked operands. -/
theorem of_masked (i : Instr) (h : encode i &&& readBits i = encode i) : Statement i :=
  ⟨fieldOpc_commandWord .., fieldRsvd_commandWord .., h⟩

theorem isqrtWide (x : BitVec 64) : Statement (.isqrtWide x) := by
  refine of_masked _ ?_
  simp only [encode, readBits, commandWord_and, operandA, operandB, BitVec.and_allOnes, BitVec.zero_and]

theorem isqrtNarrow (x : BitVec 32) : Statement (.isqrtNarrow x) := by
  refine of_masked _ ?_
  simp only [encode, readBits, commandWord_and, operandA, operandB, BitVec.and_allOnes, BitVec.zero_and, setWidth_and_lowOnes]

theorem rbPush (v : Cell) : Statement (.rbPush v) := by
  refine of_masked _ ?_
  simp only [encode, readBits, commandWord_and, operandA, operandB, BitVec.and_allOnes, BitVec.zero_and, setWidth_and_lowOnes]

theorem rbPop : Statement .rbPop := by
  refine of_masked _ ?_
  simp only [encode, readBits, commandWord_and, operandA, operandB, BitVec.and_allOnes, BitVec.zero_and]

theorem rbPushPop (v : Cell) : Statement (.rbPushPop v) := by
  refine of_masked _ ?_
  simp only [encode, readBits, commandWord_and, operandA, operandB, BitVec.and_allOnes, BitVec.zero_and, setWidth_and_lowOnes]

theorem rbSetSize (n : BitVec 32) : Statement (.rbSetSize n) := by
  refine of_masked _ ?_
  simp only [encode, readBits, commandWord_and, operandA, operandB, BitVec.and_allOnes, BitVec.zero_and]

theorem rmsBlock (x : Sample) (freq : BitVec 32) : Statement (.rmsBlock x freq) := by
  refine of_masked _ ?_
  simp only [encode, readBits, commandWord_and, operandA, operandB, BitVec.and_allOnes, setWidth_and_lowOnes]

theorem rmsEx (x : Sample) : Statement (.rmsEx x) := by
  refine of_masked _ ?_
  simp only [encode, readBits, commandWord_and, operandA, operandB, BitVec.and_allOnes, BitVec.zero_and, setWidth_and_lowOnes]

theorem clrBlock : Statement .clrBlock := by
  refine of_masked _ ?_
  simp only [encode, readBits, commandWord_and, operandA, operandB, BitVec.and_allOnes, BitVec.zero_and]

theorem clrEx : Statement .clrEx := by
  refine of_masked _ ?_
  simp only [encode, readBits, commandWord_and, operandA, operandB, BitVec.and_allOnes, BitVec.zero_and]

theorem clrAll : Statement .clrAll := by
  refine of_masked _ ?_
  simp only [encode, readBits, commandWord_and, operandA, operandB, BitVec.and_allOnes, BitVec.zero_and]

end Sys2Proof.Laws.Fields
end

