-- ==== Sys2Proof/Tests/Slice0.lean ====
section
/-! SUPPORT. Tests. Expected values come from spec/: the worked encodings of 30_encoding.md R81, the vectors of 95_test_vectors.md (named by
their table), or hand calculation from the rule cited. The `witness_` theorems show, for each statement of Certificates/Slice0 with
hypotheses, concrete data that meets all of them together. -/

namespace Sys2Proof.Tests

open Sys2Proof Sys2Proof.Machine

/-! ## Helpers -/

/-- The next state of an outcome, if it is one. -/
def nextOf (o : Host.Outcome State Fault Refusal) : Option State :=
  match o with
  | .next s => some s
  | _ => none

/-- The response of an outcome's next state. -/
def rspOf (o : Host.Outcome State Fault Refusal) : Option Response := (nextOf o).bind fun s => s.port.rsp

/-- The ring group of an outcome's next state. -/
def ringOf (o : Host.Outcome State Fault Refusal) : Option RingBlk := (nextOf o).map fun s => s.ring

/-- The delay line of an outcome's next state. -/
def iirOf (o : Host.Outcome State Fault Refusal) : Option IirLine := (nextOf o).map fun s => s.iir

/-- An `OK` response. -/
def okRsp (res : Word64) : Option Response := some { status := .ok, res := res }

/-- A block of the reference configuration with capacity `c` and this ring group. -/
def withRing (c : Nat) (r : RingBlk) : State := { State.resetWith { Config.reference with capacity := c } with ring := r }

/-- A block with these port actions to come and this outstanding response. -/
def withPort (inputs : List PortIn) (rsp : Option Response) (s : State) : State :=
  { s with port := { inputs := inputs, rsp := rsp, delivered := [] } }

/-- Table R-A after row 4: window 3, cells 10, 20, 30 buffered, the window full with `head` at 0. -/
def ra4 : State := withRing 10 { store := [(0, 10#32), (1, 20#32), (2, 30#32)], head := 0, tail := 3, N := 3, val := 0#64 }

/-- Table R-A after row 5: the window full with `head` at 1. -/
def ra5 : State :=
  withRing 10 { store := [(0, 10#32), (1, 20#32), (2, 30#32), (3, 40#32)], head := 1, tail := 0, N := 3, val := 0#64 }

/-- Table R-A after row 9: the buffer empty, stale cells in it. -/
def ra9 : State :=
  withRing 10 { store := [(0, 50#32), (1, 20#32), (2, 30#32), (3, 40#32)], head := 1, tail := 1, N := 3, val := 0#64 }

/-- Table R-C after row 3: three pushes into a window of 2. -/
def rc3 : State := withRing 10 { store := [(0, 1#32), (1, 2#32), (2, 3#32)], head := 0, tail := 0, N := 2, val := 0#64 }

/-- Table B-A after row 3. -/
def ba3 : State := withRing 51 { store := [(0, 9#32), (1, 16#32), (2, 25#32)], head := 0, tail := 3, N := 3, val := 50#64 }

/-- An index above `C`: no run reaches it. -/
def beyond (head tail : Nat) : State := withRing 10 { store := [], head := head, tail := tail, N := 3, val := 0#64 }

theorem inv_ra4 : ra4.Inv := ⟨by decide, by decide, by decide, by decide, by decide, by decide, by decide⟩
theorem inv_ra5 : ra5.Inv := ⟨by decide, by decide, by decide, by decide, by decide, by decide, by decide⟩
theorem inv_rc3 : rc3.Inv := ⟨by decide, by decide, by decide, by decide, by decide, by decide, by decide⟩
theorem inv_ba3 : ba3.Inv := ⟨by decide, by decide, by decide, by decide, by decide, by decide, by decide⟩
theorem inv_reset : State.reset.Inv := ⟨by decide, by decide, by decide, by decide, by decide, by decide, by decide⟩

/-! ## WellFormed refuses (30_encoding.md R82, each range at both ends) -/

theorem test_refuses_isqrtWide_low : (AsmLine.isqrtWide (-1)).wellFormed = false := by decide
theorem test_refuses_isqrtWide_high : (AsmLine.isqrtWide (2 ^ 64)).wellFormed = false := by decide
theorem test_refuses_isqrtNarrow_low : (AsmLine.isqrtNarrow (-1)).wellFormed = false := by decide
theorem test_refuses_isqrtNarrow_high : (AsmLine.isqrtNarrow (2 ^ 32)).wellFormed = false := by decide
theorem test_refuses_rbPush_low : (AsmLine.rbPush (-1)).wellFormed = false := by decide
/-- Table R-F: "The assembler … would reject `0x100000005` as out of range." -/
theorem test_refuses_rbPush_high : (AsmLine.rbPush 0x100000005).wellFormed = false := by decide
theorem test_refuses_rbPushPop_low : (AsmLine.rbPushPop (-1)).wellFormed = false := by decide
theorem test_refuses_rbPushPop_high : (AsmLine.rbPushPop (2 ^ 32)).wellFormed = false := by decide
theorem test_refuses_rbSetSize_low : (AsmLine.rbSetSize (-1)).wellFormed = false := by decide
theorem test_refuses_rbSetSize_high : (AsmLine.rbSetSize (2 ^ 32)).wellFormed = false := by decide
theorem test_refuses_rmsBlock_sample_low : (AsmLine.rmsBlock (-32769) 5000).wellFormed = false := by decide
theorem test_refuses_rmsBlock_sample_high : (AsmLine.rmsBlock 32768 5000).wellFormed = false := by decide
theorem test_refuses_rmsBlock_freq_low : (AsmLine.rmsBlock 0 (-1)).wellFormed = false := by decide
theorem test_refuses_rmsBlock_freq_high : (AsmLine.rmsBlock 0 (2 ^ 32)).wellFormed = false := by decide
theorem test_refuses_rmsEx_low : (AsmLine.rmsEx (-32769)).wellFormed = false := by decide
theorem test_refuses_rmsEx_high : (AsmLine.rmsEx 32768).wellFormed = false := by decide
theorem test_accepts_range_ends : ([.isqrtWide 0, .isqrtWide (2 ^ 64 - 1), .isqrtNarrow (2 ^ 32 - 1), .rbSetSize (2 ^ 32 - 1),
    .rmsBlock (-32768) 0, .rmsBlock 32767 (2 ^ 32 - 1), .rmsEx (-32768)] : List AsmLine).all AsmLine.wellFormed = true := by decide

/-! ## Decoding words written out from the spec (30_encoding.md R81; 95_test_vectors.md sections 1, 2) -/

theorem test_decode_isqrtWide : decode 0xFFFFFFFFFFFFFFFF0000000000000001#128 = .ok (.isqrtWide 0xFFFFFFFFFFFFFFFF#64) := by decide
theorem test_decode_isqrtNarrow : decode 0x00000000000F42400000000000000002#128 = .ok (.isqrtNarrow 1000000#32) := by decide
/-- Table R-F, row 4: `A[63:32]` is ignored. -/
theorem test_decode_rbPush : decode 0x00000001000000050000000000000010#128 = .ok (.rbPush 5#32) := by decide
theorem test_decode_rbPop : decode 0x00000000000000000000000000000011#128 = .ok .rbPop := by decide
theorem test_decode_rbPushPop : decode 0x00000000000000090000000000000012#128 = .ok (.rbPushPop 9#32) := by decide
theorem test_decode_rbSetSize : decode 0x00000000000000000000000300000013#128 = .ok (.rbSetSize 3#32) := by decide
/-- The sample is `-5`. -/
theorem test_decode_rmsBlock : decode 0x000000000000FFFB0000138800000020#128 = .ok (.rmsBlock (BitVec.ofInt 16 (-5)) 5000#32) := by decide
theorem test_decode_rmsEx : decode 0x00000000000003E80000000000000030#128 = .ok (.rmsEx 1000#16) := by decide
theorem test_decode_clrBlock : decode 0x000000000000000000000000000000F0#128 = .ok .clrBlock := by decide
theorem test_decode_clrEx : decode 0x000000000000000000000000000000F1#128 = .ok .clrEx := by decide
theorem test_decode_clrAll : decode 0x000000000000000000000000000000FF#128 = .ok .clrAll := by decide

/-- 30_encoding.md R79: one reserved bit set, at each end of the field. -/
theorem test_reject_reserved : decode 0x110#128 = .error .reservedNotZero ∧ decode 0x80000010#128 = .error .reservedNotZero := by decide
/-- 30_encoding.md R79: "The all-zero command word is illegal." -/
theorem test_reject_unassigned : decode 0#128 = .error .unassignedOpcode := by decide
/-- 20_memory.md R53. -/
theorem test_reject_partial : decodeBytes [0x11#8] = .error .partialWord := by decide
/-- 20_memory.md R52: byte 0 is the opcode, bytes 4 to 7 are `B`, lowest byte first; byte 8 starts `A`. -/
theorem test_bytes_order : decodeBytes [0x20#8, 0#8, 0#8, 0#8, 0x88#8, 0x13#8, 0#8, 0#8, 0xFB#8, 0xFF#8, 0#8, 0#8, 0#8, 0#8, 0#8, 0#8] =
    .ok (.rmsBlock 0xFFFB#16 5000#32) := by decide

/-- 30_encoding.md R82: hexadecimal, a comment, an empty line, a negative sample. -/
theorem test_text_assembles :
    assembleText "ISQRT_WIDE   0xFFFFFFFFFFFFFFFF ; all ones\n; nothing\n\nRMS_BLOCK -5, 5000\nRB_POP".toList =
      some [0xFFFFFFFFFFFFFFFF0000000000000001#128, 0x000000000000FFFB0000138800000020#128, 0x11#128] := by decide
/-- A missing operand, a sample out of range, and no digits. -/
theorem test_text_refused : assembleText "RMS_BLOCK -5".toList = none ∧ assembleText "RMS_EX 32768".toList = none ∧
    assembleText "RB_PUSH 0x".toList = none := by decide

/-- 30_encoding.md R76, R77: table V5 row 1, the response `02 0000000000000000`, and R-A row 5, `00 000000000000000A`. -/
theorem test_response_words : Response.word { status := .size, res := 0#64 } = 0x020000000000000000#72 ∧
    Response.word { status := .ok, res := 10#64 } = 0x00000000000000000A#72 ∧
    Response.word { status := .illegal, res := 0#64 } = 0x010000000000000000#72 ∧
    Response.bytes { status := .size, res := 0x0B0A#64 } = [0x0A#8, 0x0B#8, 0#8, 0#8, 0#8, 0#8, 0#8, 0#8, 2#8] := by decide

/-! ## One step of each command -/

/-- Section 2.1: the largest square below 2^64, and the number below it. -/
theorem test_isqrtWide_top : rspOf (exec (.isqrtWide 0xFFFFFFFE00000001#64) State.reset) = okRsp 4294967295#64 ∧
    rspOf (exec (.isqrtWide 0xFFFFFFFE00000000#64) State.reset) = okRsp 4294967294#64 := by decide
theorem test_isqrtWide_mid : rspOf (exec (.isqrtWide 0xAB54A98CEB1F0AD2#64) State.reset) = okRsp 3513641828#64 := by decide
/-- Section 2.1: 65535^2 and the number below it. -/
theorem test_isqrtNarrow_top : rspOf (exec (.isqrtNarrow 0xFFFE0001#32) State.reset) = okRsp 65535#64 ∧
    rspOf (exec (.isqrtNarrow 0xFFFE0000#32) State.reset) = okRsp 65534#64 := by decide
theorem test_isqrtNarrow_mid : rspOf (exec (.isqrtNarrow 0xEB1F0AD2#32) State.reset) = okRsp 62806#64 := by decide
/-- Table R-C, row 4: the push that wraps `tail` onto `head`. -/
theorem test_rbPush_wraps : ringOf (exec (.rbPush 3#32)
    (withRing 10 { store := [(0, 1#32), (1, 2#32)], head := 0, tail := 2, N := 2, val := 0#64 })) = some rc3.ring := by decide
/-- Pushing 0 over a listed cell. -/
theorem test_rbPush_zero : (ringOf (exec (.rbPush 0#32) ra5)).map RingBlk.store = some [(1, 20#32), (2, 30#32), (3, 40#32)] := by decide
/-- Table R-A, row 10: a pop of an empty buffer answers the stale cell and moves `head` past `tail`. -/
theorem test_rbPop_empty : rspOf (exec .rbPop ra9) = okRsp 20#64 ∧ ringOf (exec .rbPop ra9) = some { ra9.ring with head := 2 } := by decide
/-- 41_ring_buffer.md R128: a pop at `head = N` wraps (table R-A, row 8). -/
theorem test_rbPop_wraps : (ringOf (exec .rbPop (withRing 10 { ra5.ring with head := 3, tail := 1 }))).map RingBlk.head = some 0 := by decide
/-- Table R-A, row 5. -/
theorem test_rbPushPop_evicts : rspOf (exec (.rbPushPop 40#32) ra4) = okRsp 10#64 ∧ ringOf (exec (.rbPushPop 40#32) ra4) = some ra5.ring := by decide
/-- Table R-C, row 8: the full state of R127 evicts nothing. -/
theorem test_rbPushPop_noEvict : rspOf (exec (.rbPushPop 4#32) rc3) = okRsp 0#64 ∧
    ringOf (exec (.rbPushPop 4#32) rc3) = some { rc3.ring with store := [(0, 4#32), (1, 2#32), (2, 3#32)], tail := 1 } := by decide
/-- Table R-B, rows 1 and 2 (`C = 10`): `n = 0` and `n = C + 1` fail. -/
theorem test_rbSetSize_fails : rspOf (exec (.rbSetSize 0#32) ra4) = okRsp 0#64 ∧ rspOf (exec (.rbSetSize 11#32) ra4) = okRsp 0#64 ∧
    ringOf (exec (.rbSetSize 11#32) ra4) = some ra4.ring := by decide
/-- Table R-B, rows 3 and 4: `n = C` and `n = 1` succeed. -/
theorem test_rbSetSize_succeeds : rspOf (exec (.rbSetSize 10#32) ra4) = okRsp 1#64 ∧
    ringOf (exec (.rbSetSize 1#32) ra4) = some { ra4.ring with N := 1 } := by decide
/-- Table B-A, row 4: evicts 9, `floor(sqrt(41 / 3)) = 3`. -/
theorem test_rmsBlock_evicts : rspOf (exec (.rmsBlock 0#16 5000#32) ba3) = okRsp 3#64 ∧
    ringOf (exec (.rmsBlock 0#16 5000#32) ba3) =
      some { store := [(0, 9#32), (1, 16#32), (2, 25#32)], head := 1, tail := 0, N := 3, val := 41#64 } := by decide
/-- Section 3, the mixed-use table, row 7: `val` wraps below 0. -/
theorem test_rmsBlock_wraps : rspOf (exec (.rmsBlock 0xFFFB#16 5000#32)
      (withRing 10 { store := [(0, 50#32), (1, 20#32), (2, 30#32), (3, 40#32)], head := 2, tail := 1, N := 3, val := 0#64 })) =
        okRsp 2479700524#64 := by decide
/-- Table I-A, call 2, from the cells call 1 leaves: `y2 = 126`, root 11. -/
theorem test_rmsEx_second : rspOf (exec (.rmsEx 1000#16) { State.reset with iir := { dx1 := 6500#64, dy1 := 6500#64, dx2 := 42#64, dy2 := 42#64 } }) =
      okRsp 11#64 ∧
    iirOf (exec (.rmsEx 1000#16) { State.reset with iir := { dx1 := 6500#64, dy1 := 6500#64, dx2 := 42#64, dy2 := 42#64 } }) =
      some { dx1 := 12916#64, dy1 := 13000#64, dx2 := 126#64, dy2 := 126#64 } := by decide
/-- 43_iir_rms.md R181: a negative stage-2 output saturates to 0, and one above `2^32 - 1` to `2^32 - 1`, whose root is 65535. -/
theorem test_rmsEx_saturates :
    rspOf (exec (.rmsEx 0#16) { State.reset with iir := { dx1 := 0#64, dy1 := 0#64, dx2 := BitVec.ofInt 64 (-9), dy2 := 0#64 } }) = okRsp 0#64 ∧
    rspOf (exec (.rmsEx 0#16) { State.reset with iir := { dx1 := 0#64, dy1 := 0#64, dx2 := 0x100000000#64, dy2 := 0#64 } }) =
      okRsp 65535#64 := by decide
/-- Section 2.5, row 5 (`C = 51`). -/
theorem test_clrBlock : ringOf (exec .clrBlock ba3) = some { store := [], head := 0, tail := 0, N := 51, val := 0#64 } := by decide
/-- Table I-C, row 4; the ring group stays. -/
theorem test_clrEx : iirOf (exec .clrEx { ba3 with iir := { dx1 := 12831#64, dy1 := 12916#64, dx2 := 208#64, dy2 := 209#64 } }) =
      some { dx1 := 0#64, dy1 := 0#64, dx2 := 0#64, dy2 := 0#64 } ∧ ringOf (exec .clrEx ba3) = some ba3.ring := by decide
theorem test_clrAll : (nextOf (exec .clrAll { ba3 with iir := { dx1 := 1#64, dy1 := 2#64, dx2 := 3#64, dy2 := 4#64 } })).map
      (fun s => (s.ring, s.iir)) = some (RingBlk.reset 51, IirLine.reset) := by decide

/-! ## Ports -/

/-- Table V5, row 1, through the ports: an `RMS_BLOCK` whose window of 300 exceeds 51. -/
theorem test_step_size : rspOf (step (State.reset.withFetchWord 128 0x00000000000000640000003200000020)) =
    some { status := .size, res := 0#64 } := by decide
/-- 70_reset_and_hazards.md R251: a reset abandons the outstanding command. -/
theorem test_step_reset : rspOf (step (withPort [assertReset] (okRsp 7#64) ra5)) = none ∧
    ringOf (step (withPort [assertReset] (okRsp 7#64) ra5)) = some (RingBlk.reset 10) := by decide
/-- 30_encoding.md R70: a word presented while a command is outstanding is not accepted. -/
theorem test_step_not_ready : (nextOf (step (withPort [present 0x11#128] (okRsp 7#64) ra5))).map (fun s => (s.ring, s.port.rsp)) =
    some (ra5.ring, okRsp 7#64) := by decide

/-! ## Witnesses: encoding -/

/-- `RB_PUSH 7` with every unread bit set. -/
theorem witness_EncodeKeepsEveryReadBit : decode 0xFFFFFFFF00000007FFFFFFFF00000010#128 = .ok (.rbPush 7#32) := by decide
theorem witness_UnreadBitsAreIgnored : decode 0x00000000000000070000000000000010#128 = .ok (.rbPush 7#32) ∧
    0xFFFFFFFF00000007FFFFFFFF00000010#128 &&& readBits (.rbPush 7#32) =
      0x00000000000000070000000000000010#128 &&& readBits (.rbPush 7#32) := by decide
/-- The clauses of the opcode map: a reserved word, and every assigned opcode's field under `RSVD = 0`. -/
theorem witness_DecodeFollowsTheOpcodeMap : (0x100#128 : CommandWord).extractLsb' 8 24 ≠ 0#24 ∧
    ([0x01#8, 0x02#8, 0x10#8, 0x11#8, 0x12#8, 0x13#8, 0x20#8, 0x30#8, 0xF0#8, 0xF1#8, 0xFF#8] : List (BitVec 8)).all (fun o =>
      (o.setWidth 128).extractLsb' 8 24 = 0#24 ∧ (o.setWidth 128).extractLsb' 0 8 = o ∧ ¬ unassigned o.toNat) = true := by decide
/-- The ends of each unassigned range, and that no assigned neighbour falls in one. -/
theorem witness_unassigned_ends :
    ([0x00, 0x03, 0x0F, 0x14, 0x1F, 0x21, 0x2F, 0x31, 0xEF, 0xF2, 0xFE] : List Nat).all (fun o => unassigned o) = true ∧
    ([0x01, 0x02, 0x10, 0x13, 0x20, 0x30, 0xF0, 0xF1, 0xFF] : List Nat).all (fun o => ¬ unassigned o) = true := by decide
theorem witness_AssembledLinesDecodeToThemselves : (AsmLine.rmsEx 32768).wellFormed = false ∧ (AsmLine.rmsEx (-32768)).wellFormed = true := by decide
theorem witness_TransportCarriesWholeWords : ((List.replicate 15 0x11#8).length ≠ 16 ∧ (List.replicate 17 0x11#8).length ≠ 16) ∧
    (commandBytes 0xAB000000000000000000000000000011#128)[0]? = some 0x11#8 ∧
    (commandBytes 0xAB000000000000000000000000000011#128)[15]? = some 0xAB#8 ∧
    ([0#32, 0#32, 0#32] : List (BitVec 32)).length ≠ 4 ∧
    (commandWords 0x000000000000FFFB0000138800000020#128)[1]? = some 5000#32 := by decide
theorem witness_IllegalWordsChangeNothing : (0x80000010#128 : CommandWord).extractLsb' 8 24 ≠ 0#24 ∧
    unassigned ((0xFE#128 : CommandWord).extractLsb' 0 8).toNat ∧
    ¬ ((0x10#128 : CommandWord).extractLsb' 8 24 ≠ 0#24 ∨ unassigned ((0x10#128 : CommandWord).extractLsb' 0 8).toNat) ∧
    rspOf (perform 0x10#128 ra5) = okRsp 0#64 := by decide

/-- 20_memory.md R52: a response word on a 32-bit transport, cut by hand: words 0 and 1, and the low byte of word 2. -/
theorem test_response_words32 : (Response.words { status := .size, res := 0x0123456789ABCDEF#64 })[0]? = some 0x89ABCDEF#32 ∧
    (Response.words { status := .size, res := 0x0123456789ABCDEF#64 })[1]? = some 0x01234567#32 ∧
    responseOfWords [0x89ABCDEF#32, 0x01234567#32, 0xFFFFFF02#32] = some 0x020123456789ABCDEF#72 := by decide
theorem witness_TransportCarriesWholeResponses : ([0#8] : List Byte).length ≠ 9 ∧ ([0#32, 0#32] : List (BitVec 32)).length ≠ 3 ∧
    (Response.bytes { status := .illegal, res := 0xAB#64 })[0]? = some 0xAB#8 ∧
    (Response.bytes { status := .illegal, res := 0xAB#64 })[8]? = some 1#8 ∧
    responseOfBytes (Response.bytes { status := .illegal, res := 0xAB#64 }) = some 0x0100000000000000AB#72 ∧
    (Response.words { status := .illegal, res := 0xAB#64 })[2]?.isSome = true := by decide

/-! ## Witnesses: ports and the step -/

/-- The hypotheses of `StepRunsTheDecodedCommand`, with a word that decodes and one that does not. -/
theorem witness_StepRunsTheDecodedCommand : configLegal (withPort [present 0x11#128] none ra5).cfg = true ∧
    (withPort [present 0x11#128] none ra5).port.inputs = [present 0x11#128] ∧ (present 0x11#128).rst = false ∧
    (present 0x11#128).cmd = some 0x11#128 ∧ (withPort [present 0x11#128] none ra5).port.rsp = none ∧
    decode 0x11#128 = .ok .rbPop ∧ decode 0#128 = .error .unassignedOpcode := by decide
theorem witness_AcceptedCommandGetsOneResponse : (withPort [present 0#128] none ra5).Inv ∧
    (withPort [present 0#128] none ra5).port.inputs = [present 0#128] ∧ (present 0#128).rst = false ∧
    (present 0#128).cmd = some 0#128 ∧ (withPort [present 0#128] none ra5).port.rsp = none :=
  ⟨⟨by decide, by decide, by decide, by decide, by decide, by decide, by decide⟩, by decide⟩
/-- With the host ready, and with the host presenting a word and not ready. -/
theorem witness_OneCommandIsOutstanding :
    (takeResponse.rst = false ∧ takeResponse.rspReady = true ∧ (present 0x11#128).rst = false ∧ (present 0x11#128).rspReady = false) ∧
    configLegal (withPort [takeResponse] (okRsp 7#64) ra5).cfg = true ∧
    (withPort [takeResponse] (okRsp 7#64) ra5).port.rsp = okRsp 7#64 := by decide
theorem witness_IdleBlockHoldsItsState : configLegal State.reset.cfg = true ∧ State.reset.port.inputs = [] ∧
    (withPort [takeResponse] none ra5).port.inputs = [takeResponse] ∧ takeResponse.rst = false ∧ takeResponse.cmd = none ∧
    (withPort [takeResponse] none ra5).port.rsp = none := by decide
theorem witness_ResetGivesTheResetValues : configLegal (withPort [assertReset] (okRsp 7#64) ra5).cfg = true ∧
    (withPort [assertReset] (okRsp 7#64) ra5).port.inputs = [assertReset] ∧ assertReset.rst = true := by decide
theorem witness_PortsCarryTheCommandStream :
    (withPort (exchange [0x11#128, 0#128] ++ [assertReset]) none ra5).Inv ∧
    (withPort (exchange [0x11#128, 0#128] ++ [assertReset]) none ra5).port.rsp = none ∧
    (withPort (exchange [0x11#128, 0#128] ++ [assertReset]) none ra5).port.inputs = exchange [0x11#128, 0#128] ++ [assertReset] :=
  ⟨⟨by decide, by decide, by decide, by decide, by decide, by decide, by decide⟩, rfl, rfl⟩
/-- Each constraint of 00_scope.md R9 at its bounds, and just beyond. -/
theorem witness_IllegalConfigurationsAreRefused :
    ([{ Config.reference with sampleRate := 1 }, { Config.reference with capacity := 1 }, { Config.reference with capacity := 2 ^ 24 },
      { Config.reference with shift := 1 }, { Config.reference with shift := 30 }, { Config.reference with coefA := -32768 },
      { Config.reference with coefB0 := 32767 }, { Config.reference with coefB1 := -32768 }] : List Config).all configLegal = true ∧
    ([{ Config.reference with sampleRate := 0 }, { Config.reference with capacity := 0 }, { Config.reference with capacity := 2 ^ 24 + 1 },
      { Config.reference with sampleW := 15 }, { Config.reference with sampleW := 17 },
      { Config.reference with shift := 0 }, { Config.reference with shift := 31 }, { Config.reference with coefA := -32769 },
      { Config.reference with coefA := 32768 }, { Config.reference with coefB0 := -32769 }, { Config.reference with coefB0 := 32768 },
      { Config.reference with coefB1 := -32769 }, { Config.reference with coefB1 := 32768 }] : List Config).all
        (fun c => !configLegal c) = true := by decide
theorem witness_NoStepChangesTheConfiguration : ∃ t, step (withPort [present 0x11#128] none ra5) = .next t := ⟨_, rfl⟩
theorem witness_ResetMeetsTheInvariant : configLegal { Config.reference with capacity := 1 } = true := by decide
theorem witness_EveryStepKeepsTheInvariant : (withPort [present 0x11#128] none ra5).Inv ∧
    ∃ t, step (withPort [present 0x11#128] none ra5) = .next t :=
  ⟨⟨by decide, by decide, by decide, by decide, by decide, by decide, by decide⟩, _, rfl⟩
theorem witness_TheBlockAlwaysGoesOn : (withPort [present 0x11#128] none ra5).Inv :=
  ⟨by decide, by decide, by decide, by decide, by decide, by decide, by decide⟩
/-- A fault at `head` and one at `tail`. -/
theorem witness_OnlyMissingCellsFault : step (withPort [present 0x11#128] none (beyond 11 0)) = .fault (.storageIndex 11) ∧
    step (withPort [present 0x10#128] none (beyond 0 11)) = .fault (.storageIndex 11) := ⟨rfl, rfl⟩

/-! ## Witnesses: errors and the observer -/

/-- V10 at the boundaries: windows of 0, 1, 51 and 52. -/
theorem witness_ErrorsAreExactlyThese : State.reset.Inv ∧ windowSize Config.reference 15001#32 = 0 ∧
    windowSize Config.reference 15000#32 = 1 ∧ windowSize Config.reference 289#32 = 51 ∧ windowSize Config.reference 288#32 = 52 :=
  ⟨inv_reset, by decide⟩
theorem witness_TheFaultRecordOnlyGrows : (∃ t, step (withPort [present 0#128] none ra5) = .next t) ∧
    rspOf (perform 0#128 ra5) = some { status := .illegal, res := 0#64 } ∧
    rspOf (perform 0x20#128 ra5) = some { status := .size, res := 0#64 } := ⟨⟨_, rfl⟩, by decide⟩
/-- Each clause: a clear, a push, a pop, a push-pop and an `RMS_BLOCK` that evict, one that is answered `SIZE`, a command that leaves the
ring, an illegal word and a reset; and a pop with as many pops as pushes before it, and one with fewer. -/
theorem witness_PopsBeyondPushesAreRecorded :
    ([.clrBlock, .clrAll, .rbPush 1#32, .rbPop, .rbPushPop 1#32, .rmsBlock 0#16 5000#32, .rmsBlock 0#16 0#32, .rbSetSize 1#32, .clrEx] :
      List Instr).map (fun i => (nextOf (exec i { ba3 with obs := { record := [], pushes := 3, pops := 2 } })).map fun t =>
        (t.obs.pushes, t.obs.pops)) =
      [some (0, 0), some (0, 0), some (4, 2), some (3, 3), some (4, 3), some (4, 3), some (3, 2), some (3, 2), some (3, 2)] ∧
    leavesRing .clrEx = true ∧ decode 0#128 = .error .unassignedOpcode ∧
    (configLegal (withPort [assertReset] none ba3).cfg = true ∧ assertReset.rst = true) ∧
    ra9.obs.pops ≤ ra9.obs.pushes ∧
    (nextOf (exec .rbPop ra9)).map (fun t => t.obs) = some { record := [.popEmpty], pushes := 0, pops := 1 } ∧
    (nextOf (exec .rbPop { ra9 with obs := { record := [], pushes := 1, pops := 0 } })).map (fun t => t.obs) =
      some { record := [], pushes := 1, pops := 1 } := by decide

/-! ## Witnesses: ring buffer -/

/-- `tail` inside the window, at its end, above it, and at the last cell. -/
theorem witness_RbPushStoresAtTail : ([{ ra5 with ring := { ra5.ring with tail := 2 } }, { ra5 with ring := { ra5.ring with tail := 3 } },
    { ra5 with ring := { ra5.ring with tail := 4 } }, { ra5 with ring := { ra5.ring with tail := 10 } }] : List State).all
      (fun s => s.ring.store.wf ∧ s.ring.tail ≤ s.cfg.capacity) = true := by decide
/-- `head` inside the window, at its end, and above it at the last cell. -/
theorem witness_RbPopReadsAtHead : ([{ ra5 with ring := { ra5.ring with head := 2 } }, { ra5 with ring := { ra5.ring with head := 3 } },
    { ra5 with ring := { ra5.ring with head := 10 } }] : List State).all (fun s => s.ring.head ≤ s.cfg.capacity) = true := by decide
/-- A full window and one that is not. -/
theorem witness_RbPushPopEvictsWhenFull :
    (ra4.ring.store.wf ∧ ra4.ring.tail ≤ ra4.cfg.capacity ∧ adv ra4.ring.N ra4.ring.tail = ra4.ring.head ∧ ra4.ring.head ≤ ra4.cfg.capacity) ∧
    (rc3.ring.store.wf ∧ rc3.ring.tail ≤ rc3.cfg.capacity ∧ adv rc3.ring.N rc3.ring.tail ≠ rc3.ring.head) := by decide
/-- The two clauses at 0, 1, `C` and `C + 1`. -/
theorem witness_RbSetSizeSetsTheWindow : ((0#32).toNat = 0 ∧ (11#32).toNat > ra4.cfg.capacity) ∧
    (1 ≤ (1#32).toNat ∧ (1#32).toNat ≤ ra4.cfg.capacity) ∧ (1 ≤ (10#32).toNat ∧ (10#32).toNat ≤ ra4.cfg.capacity) := by decide
/-- An eviction at a `head` above `C` needs a window above `C` too. -/
theorem witness_RingAccessAboveCapacityFaults : (beyond 0 11).cfg.capacity < (beyond 0 11).ring.tail ∧
    (beyond 11 0).cfg.capacity < (beyond 11 0).ring.head ∧
    ((withRing 10 { store := [], head := 11, tail := 10, N := 11, val := 0#64 }).ring.tail ≤ 10 ∧ adv 11 10 = 11 ∧ 10 < 11) ∧
    ((5000#32).toNat ≠ 0 ∧ 1 ≤ (beyond 0 11).cfg.sampleRate * 10 / (5000#32).toNat ∧
      (beyond 0 11).cfg.sampleRate * 10 / (5000#32).toNat ≤ (beyond 0 11).cfg.capacity) := by decide
/-- Empty in the middle of the window, and at its end. -/
theorem witness_PopOfEmptyReturnsTheStaleCell :
    (ra9.ring.head = ra9.ring.tail ∧ ra9.ring.tail ≤ ra9.ring.N ∧ ra9.ring.N ≤ ra9.cfg.capacity) ∧
    ((withRing 10 { ra9.ring with head := 3, tail := 3 }).ring.tail ≤ (withRing 10 { ra9.ring with head := 3, tail := 3 }).ring.N) := by decide
/-- From stale cells, not from the start of the window. -/
theorem witness_SlidingWindowLaw : ra9.ring.store.wf ∧ ra9.ring.head = ra9.ring.tail ∧ ra9.ring.tail ≤ ra9.ring.N ∧
    ra9.ring.N ≤ ra9.cfg.capacity := by decide
theorem witness_PushedValuesPopInOrder : ra9.ring.store.wf ∧ ra9.ring.head = ra9.ring.tail ∧ ra9.ring.tail ≤ ra9.ring.N ∧
    ra9.ring.N ≤ ra9.cfg.capacity ∧ ([1#32, 2#32, 3#32, 4#32] : List Cell).length ≤ ra9.ring.N + 1 := by decide
theorem witness_PushOntoHeadOverwritesTheOldest : ra4.Inv ∧ adv ra4.ring.N ra4.ring.tail = ra4.ring.head := ⟨inv_ra4, by decide⟩
/-- Table R-E, row 10: the window shrunk to 2 below `head = 3`. -/
theorem witness_ShrunkWindowNeverEvicts : (withRing 10 { ra5.ring with head := 3, tail := 2, N := 2 }).ring.N < 3 ∧
    (withRing 10 { ra5.ring with head := 3, tail := 2, N := 2 }).ring.tail ≤ 2 ∧ 2 ≤ (withRing 10 ra5.ring).cfg.capacity := by decide
/-- A full window with `head` at 1, and one with `head` at 0. -/
theorem witness_GrownFullWindowEvictsUnlessHeadIsZero : (ra5.Inv ∧ ra4.Inv) ∧
    (ra5.ring.head ≤ ra5.ring.N ∧ ra5.ring.tail ≤ ra5.ring.N ∧ occupancy ra5.ring = ra5.ring.N ∧ ra5.ring.head ≠ 0) ∧
    (ra4.ring.head ≤ ra4.ring.N ∧ ra4.ring.tail ≤ ra4.ring.N ∧ occupancy ra4.ring = ra4.ring.N ∧ ra4.ring.head = 0) ∧
    ra5.ring.N < (5#32).toNat ∧ (5#32).toNat ≤ ra5.cfg.capacity := ⟨⟨inv_ra5, inv_ra4⟩, by decide⟩

/-! ## Witnesses: block estimator -/

/-- A call that evicts and one that does not, windows of 3. -/
theorem witness_RmsBlockUpdatesTheRunningSum : (ba3.ring.store.wf ∧ ba3.ring.tail ≤ ba3.cfg.capacity) ∧
    ((5000#32).toNat ≠ 0 ∧ 1 ≤ ba3.cfg.sampleRate * 10 / (5000#32).toNat ∧ ba3.cfg.sampleRate * 10 / (5000#32).toNat ≤ ba3.cfg.capacity) ∧
    adv 3 ba3.ring.tail = ba3.ring.head ∧ adv 3 State.reset.ring.tail ≠ State.reset.ring.head := by decide
/-- The three cases (table B-B, rows 1, 2, 5), and a state and response for the converse. -/
theorem witness_RmsBlockRefusesBadWindows : (0#32).toNat = 0 ∧ State.reset.cfg.sampleRate * 10 / (15001#32).toNat = 0 ∧
    State.reset.cfg.sampleRate * 10 / (288#32).toNat > State.reset.cfg.capacity ∧
    rspOf (exec (.rmsBlock 100#16 288#32) State.reset) = some { status := .size, res := 0#64 } := by decide
/-- V6: at `C = 500` the window at the lowest frequency fits; at the reference `C = 51` it does not. -/
theorem witness_RmsBlockAtMinFreq : State.reset.Inv ∧ (withRing 500 (RingBlk.reset 500)).Inv ∧ (30#32).toNat = State.reset.cfg.minFreq ∧
    ¬ (State.reset.cfg.sampleRate * 10 / State.reset.cfg.minFreq ≤ State.reset.cfg.capacity) ∧
    State.reset.cfg.sampleRate * 10 / State.reset.cfg.minFreq ≤ (withRing 500 (RingBlk.reset 500)).cfg.capacity :=
  ⟨inv_reset, ⟨by decide, by decide, by decide, by decide, by decide, by decide, by decide⟩, by decide⟩
theorem witness_FrequencyLimitsAreNotRead : ∃ t, perform 0x000000000000FFFB0000138800000020#128 State.reset = .next t := ⟨_, rfl⟩
/-- Two calls at two frequencies of one window length (`15000 / 4999` truncates to 3 too), with a command of the other group between. -/
def twoCalls : List Instr := [.rmsBlock 3#16 5000#32, .rmsEx 7#16, .rmsBlock 0xFFFC#16 4999#32]

theorem twoCalls_oneWindow : oneWindow State.reset.cfg 3 twoCalls := by
  intro i hi
  simp only [twoCalls, List.mem_cons, List.not_mem_nil, or_false] at hi
  rcases hi with rfl | rfl | rfl
  · exact .inr ⟨_, _, rfl, by decide, rfl⟩
  · exact .inl rfl
  · exact .inr ⟨_, _, rfl, by decide, rfl⟩

theorem witness_RunningSumEqualsTheWindow : State.reset.Inv ∧ State.reset.ring.head = 0 ∧ State.reset.ring.tail = 0 ∧
    State.reset.ring.val = 0#64 ∧ 1 ≤ 3 ∧ 3 ≤ State.reset.cfg.capacity ∧ oneWindow State.reset.cfg 3 twoCalls :=
  ⟨inv_reset, rfl, rfl, rfl, by decide, by decide, twoCalls_oneWindow⟩

theorem witness_BlockResultIsTheWindowRms : State.reset.Inv ∧ State.reset.ring.head = 0 ∧ State.reset.ring.tail = 0 ∧
    State.reset.ring.val = 0#64 ∧ 1 ≤ 3 ∧ 3 ≤ State.reset.cfg.capacity ∧
    oneWindow State.reset.cfg 3 ([.rmsBlock 3#16 5000#32, .rmsEx 7#16] ++ [.rmsBlock 0xFFFC#16 4999#32]) :=
  ⟨inv_reset, rfl, rfl, rfl, by decide, by decide, twoCalls_oneWindow⟩

/-- The window that fills the capacity (V10). -/
theorem witness_window_of_capacity : windowSize State.reset.cfg 289#32 = State.reset.cfg.capacity := by decide

/-! ## Witnesses: IIR estimator -/

/-- From reset, and with every cell at the top of its range. -/
theorem witness_FilterCellsStayInRange : defaultFilter State.reset.cfg ∧ iirInRange State.reset.iir ∧
    iirInRange { dx1 := 1066762240#64, dy1 := 1073741824#64, dx2 := 1066762240#64, dy2 := 1073741824#64 } ∧
    (nextOf (step (withPort [present 0x00000000000080000000000000000030#128] none State.reset))).isSome = true := by decide
theorem witness_ConstantInputNeverFallsNorExceedsItsMagnitude : defaultFilter State.reset.cfg ∧ State.reset.iir = IirLine.reset := by decide
/-- Both ends of the range, 12 and -12. -/
theorem witness_SmallSamplesStayAtZero : defaultFilter State.reset.cfg ∧ State.reset.iir = IirLine.reset ∧
    ∀ x ∈ ([12#16, 0xFFF4#16] : List Sample), x.toInt.natAbs ≤ 12 := by
  refine ⟨by decide, rfl, fun x hx => ?_⟩
  simp only [List.mem_cons, List.not_mem_nil, or_false] at hx
  rcases hx with rfl | rfl <;> decide

/-! ## Witnesses: control and the whole machine -/

theorem witness_ClrAllEqualsReset : configLegal (withPort [assertReset] none ra5).cfg = true ∧
    (withPort [assertReset] none ra5).port.inputs = [assertReset] ∧ assertReset.rst = true := by decide
theorem witness_ClrBlockIsTheWriteLoop : ra5.Inv := inv_ra5
/-- A writer of each element that changes it. -/
theorem witness_EachElementHasItsWriters : (ringOf (exec (.rbSetSize 1#32) ra4)).map RingBlk.N ≠ some ra4.ring.N ∧
    (ringOf (exec (.rmsBlock 1#16 5000#32) ra4)).map RingBlk.val ≠ some ra4.ring.val ∧
    iirOf (exec (.rmsEx 1000#16) ra4) ≠ some ra4.iir ∧ (∃ t, exec (.rbSetSize 1#32) ra4 = .next t) :=
  ⟨by decide, by decide, by decide, _, rfl⟩
/-- A command of the ring group, one of the filter, and a second state for each that differs in the other group only. -/
theorem witness_TheTwoGroupsAreIndependent : (∃ t, exec .rbPop ra5 = .next t) ∧ (∃ t, exec (.rmsEx 5#16) ra5 = .next t) ∧
    Instr.rbPop ≠ .clrAll ∧ { ra5 with iir := { dx1 := 1#64, dy1 := 2#64, dx2 := 3#64, dy2 := 4#64 } }.ring = ra5.ring ∧
    { ra4 with iir := ra5.iir }.iir = ra5.iir := ⟨⟨_, rfl⟩, ⟨_, rfl⟩, by decide, rfl, rfl⟩
theorem witness_NothingElsePersists : sameBlock ra5 (withPort [takeResponse] (okRsp 1#64) ra5) ∧
    ∃ t, perform 0x11#128 ra5 = .next t := ⟨⟨rfl, rfl, rfl⟩, _, rfl⟩

end Sys2Proof.Tests
end

section
/-! Which configurations a step refuses (00_scope.md R9): past the check of the configuration no path of a step ends in a refusal, so
the check alone decides. -/

namespace Sys2Proof.Machine

/-! ## Nothing past the check refuses -/

theorem complete_ne_refused (x : Except Fault State) (r : Refusal) : complete x ≠ .refused r := by
  cases x <;> simp

/-- Every command has its meaning: it answers a next state or faults at the storage (20_memory.md R51). -/
theorem exec_ne_refused (i : Instr) (s : State) (r : Refusal) : exec i s ≠ .refused r := by
  cases i with
  | rbPush | rbPop | rbPushPop => exact complete_ne_refused _ r
  | rbSetSize n => simp only [exec, execRbSetSize]; split <;> nofun
  | rmsBlock x freq =>
    by_cases hw : windowFails s.cfg freq
    · simp [exec, execRmsBlock_fails x hw]
    · simpa only [exec, execRmsBlock_eq x hw] using complete_ne_refused _ r
  | isqrtWide | isqrtNarrow | rmsEx | clrBlock | clrEx | clrAll => nofun

/-- An illegal command word is answered `ILLEGAL`, not refused (60_exceptions.md R222). -/
theorem perform_ne_refused (w : CommandWord) (s : State) (r : Refusal) : perform w s ≠ .refused r := by
  unfold perform
  split
  · exact exec_ne_refused _ s r
  · nofun

theorem clockEdge_ne_refused (e : PortIn) (s : State) (r : Refusal) : clockEdge e s ≠ .refused r := by
  unfold clockEdge
  split
  case isTrue reset => nofun
  split
  case isTrue delivery => nofun
  split
  case h_2 noCommand => nofun
  case h_1 w hcmd =>
    split
    · exact perform_ne_refused w s r
    · nofun

theorem nextEdge_ne_refused (s : State) (r : Refusal) : nextEdge s ≠ .refused r := by
  unfold nextEdge
  split
  · nofun
  · exact clockEdge_ne_refused _ _ r

/-! ## The check -/

theorem step_of_legal {s : State} (h : configLegal s.cfg = true) : step s = nextEdge s := if_pos h

theorem step_of_illegal {s : State} (h : ¬ configLegal s.cfg = true) : step s = .refused .illegalConfiguration := if_neg h

/-- `configLegal` checks exactly the constraints of 00_scope.md R9. -/
theorem configLegal_iff (cfg : Config) : configLegal cfg = true ↔
    1 ≤ cfg.sampleRate ∧ (1 ≤ cfg.capacity ∧ cfg.capacity ≤ 2 ^ 24) ∧ cfg.sampleW = 16 ∧
    (1 ≤ cfg.shift ∧ cfg.shift ≤ 30) ∧
    (-2 ^ 15 ≤ cfg.coefA ∧ cfg.coefA ≤ 2 ^ 15 - 1) ∧ (-2 ^ 15 ≤ cfg.coefB0 ∧ cfg.coefB0 ≤ 2 ^ 15 - 1) ∧
    (-2 ^ 15 ≤ cfg.coefB1 ∧ cfg.coefB1 ≤ 2 ^ 15 - 1) := by
  simp only [configLegal, Bool.and_eq_true, decide_eq_true_eq, and_assoc]

/-- Settles O15: the check accepts exactly the constraints of R9, and nothing past it refuses. -/
theorem illegalConfigurationsAreRefused : Obligations.IllegalConfigurationsAreRefused := by
  intro s
  rw [← configLegal_iff]
  exact ⟨fun h r => step_of_legal h ▸ nextEdge_ne_refused s r, step_of_illegal⟩

end Sys2Proof.Machine
end

section
/-! Group 10_state.md: what a reset leaves, the invariant of every step, and what each command reads and writes. -/

namespace Sys2Proof.Machine

/-! ## Reset -/

/-- An edge with `rst` of a legal block resets it, whatever else the host drives (70_reset_and_hazards.md R250). -/
theorem step_of_rst {s : State} {e : PortIn} {rest : List PortIn} (hl : configLegal s.cfg = true)
    (hi : s.port.inputs = e :: rest) (he : e.rst = true) :
    step s = .next (resetBlock { s with port := { s.port with inputs := rest } }) := by
  rw [step_of_legal hl]
  simp [nextEdge, hi, clockEdge, he]

/-- Settles O13: the step is `resetBlock`, whose fields are the reset values. -/
theorem resetGivesTheResetValues : Obligations.ResetGivesTheResetValues := by
  intro s e rest hl hi he
  refine ⟨by simp [cmdReady, he], by simp [rspValid, he], _, step_of_rst hl hi he, ?_⟩
  simp

/-! ## The invariant -/

/-- A ring group at its reset values meets the invariant in every legal configuration. -/
theorem State.Inv.of_reset_ring {s : State} (hl : configLegal s.cfg = true) (hr : s.ring = RingBlk.reset s.cfg.capacity) :
    s.Inv := by
  obtain ⟨-, ⟨hC, -⟩, -⟩ := (configLegal_iff s.cfg).1 hl
  constructor <;> simp [hl, hr, hC, Memory.wf, Memory.within]

/-- Settles O17: the ring group after reset is at its reset values. -/
theorem resetMeetsTheInvariant : Obligations.ResetMeetsTheInvariant :=
  have meets (cfg : Config) (hl : configLegal cfg = true) : (State.resetWith cfg).Inv := .of_reset_ring hl rfl
  ⟨meets, meets Config.reference (by decide)⟩

/-- The invariant speaks of the configuration and the ring group alone. -/
theorem State.Inv.congr {s t : State} (h : s.Inv) (hc : t.cfg = s.cfg) (hr : t.ring = s.ring) : t.Inv := by
  obtain ⟨legal, wf, within, head_le, tail_le, one_le_N, N_le⟩ := h
  constructor <;> simpa only [hc, hr]

theorem State.Inv.respond {s : State} (h : s.Inv) (st : Status) (r : Word64) : (respond st r s).Inv := h.congr rfl rfl

theorem State.Inv.setVal {s : State} (h : s.Inv) (v : Word64) : (s.setVal v).Inv :=
  ⟨h.legal, h.store_wf, h.store_within, h.head_le, h.tail_le, h.one_le_N, h.N_le⟩

theorem State.Inv.setN {s : State} (h : s.Inv) {n : Nat} (h1 : 1 ≤ n) (hC : n ≤ s.cfg.capacity) : (s.setN n).Inv :=
  ⟨h.legal, h.store_wf, h.store_within, h.head_le, h.tail_le, h1, hC⟩

theorem State.Inv.pushed {s : State} (h : s.Inv) (v : Cell) : (pushed v s).Inv where
  legal := h.legal
  store_wf := Memory.wf_write _ h.store_wf _ v
  store_within := Memory.within_write h.store_within h.tail_le v
  head_le := h.head_le
  tail_le := (adv_le _ _).trans h.N_le
  one_le_N := h.one_le_N
  N_le := h.N_le

theorem State.Inv.popped {s : State} (h : s.Inv) : (popped s).Inv where
  legal := h.legal
  store_wf := h.store_wf
  store_within := h.store_within
  head_le := (adv_le _ _).trans h.N_le
  tail_le := h.tail_le
  one_le_N := h.one_le_N
  N_le := h.N_le

/-- Step 3 of 42_block_rms.md R152 sets the window, adds to `val`, pushes, pops or not, and subtracts from `val`. -/
theorem blockUpdated_shape (size : Nat) (sq : Cell) (s : State) : ∃ v v',
    blockUpdated size sq s = (popped (pushed sq ((s.setN size).setVal v))).setVal v' ∨
    blockUpdated size sq s = (pushed sq ((s.setN size).setVal v)).setVal v' := by
  by_cases he : adv size s.ring.tail = s.ring.head
  · exact ⟨_, _, .inl (blockUpdated_evict sq he)⟩
  · exact ⟨_, _, .inr (blockUpdated_noEvict sq he)⟩

/-- Step 3 of 42_block_rms.md R152 keeps the invariant in a window that R153 admits. -/
theorem State.Inv.blockUpdated {s : State} (h : s.Inv) {size : Nat} (h1 : 1 ≤ size) (hC : size ≤ s.cfg.capacity) (sq : Cell) :
    (blockUpdated size sq s).Inv := by
  obtain ⟨v, v', hu | hu⟩ := blockUpdated_shape size sq s
  · exact hu ▸ (((h.setN h1 hC).setVal v).pushed sq).popped.setVal v'
  · exact hu ▸ (((h.setN h1 hC).setVal v).pushed sq).setVal v'

/-! ## What a command writes -/

@[simp] theorem blockUpdated_cfg (size : Nat) (sq : Cell) (s : State) : (blockUpdated size sq s).cfg = s.cfg := by
  obtain ⟨v, v', h | h⟩ := blockUpdated_shape size sq s <;> simp [h]

@[simp] theorem blockUpdated_iir (size : Nat) (sq : Cell) (s : State) : (blockUpdated size sq s).iir = s.iir := by
  obtain ⟨v, v', h | h⟩ := blockUpdated_shape size sq s <;> simp [h]

/-- The writes to `s` a command can make before it responds. A command may make none, and a push or a pop is not tied to its
command: neither writes `N`, `val` or the delay line. -/
inductive Writes (s : State) : Instr → State → Prop
  | nothing (i : Instr) : Writes s i s
  | push (i : Instr) (v : Cell) : Writes s i (pushed v s)
  | pop (i : Instr) : Writes s i (popped s)
  | pushPop (i : Instr) (v : Cell) : Writes s i (popped (pushed v s))
  | window (n : BitVec 32) (h1 : 1 ≤ n.toNat) (hC : n.toNat ≤ s.cfg.capacity) : Writes s (.rbSetSize n) (s.setN n.toNat)
  | block (x : Sample) (f : BitVec 32) (hw : ¬ windowFails s.cfg f) :
      Writes s (.rmsBlock x f) (blockUpdated (windowSize s.cfg f) (squareCell x) s)
  | filter (x : Sample) (dx1 dy1 dx2 dy2 : Word64) : Writes s (.rmsEx x) ((s.setStage1 dx1 dy1).setStage2 dx2 dy2)
  | clearRing : Writes s .clrBlock s.clearRing
  | clearIir : Writes s .clrEx s.clearIir
  | clearAll : Writes s .clrAll s.clearRing.clearIir

/-- A command that answers a next state makes its writes and responds. -/
theorem exec_writes {i : Instr} {s t : State} (h : exec i s = .next t) : ∃ u st r, Writes s i u ∧ t = respond st r u := by
  rcases exec_cases h with ⟨x, rfl, rfl⟩ | ⟨x, rfl, rfl⟩ | ⟨v, rfl, -, rfl⟩ | ⟨rfl, -, rfl⟩ | ⟨v, rfl, -, -, -, rfl⟩ |
    ⟨v, rfl, -, -, rfl⟩ | ⟨n, rfl, ⟨-, rfl⟩ | ⟨h1, hC, rfl⟩⟩ | ⟨x, f, rfl, -, rfl⟩ | ⟨x, f, rfl, hw, -, rfl⟩ |
    ⟨x, rfl, hx⟩ | ⟨rfl, rfl⟩ | ⟨rfl, rfl⟩ | ⟨rfl, rfl⟩
  · exact ⟨_, _, _, .nothing _, rfl⟩
  · exact ⟨_, _, _, .nothing _, rfl⟩
  · exact ⟨_, _, _, .push _ v, rfl⟩
  · exact ⟨_, _, _, .pop _, rfl⟩
  · exact ⟨_, _, _, .pushPop _ v, rfl⟩
  · exact ⟨_, _, _, .push _ v, rfl⟩
  · exact ⟨_, _, _, .nothing _, rfl⟩
  · exact ⟨_, _, _, .window n h1 hC, rfl⟩
  · exact ⟨_, _, _, .nothing _, rfl⟩
  · exact ⟨_, _, _, .block x f hw, rfl⟩
  · cases hx
    exact ⟨_, _, _, .filter x .., rfl⟩
  · exact ⟨_, _, _, .clearRing, rfl⟩
  · exact ⟨_, _, _, .clearIir, rfl⟩
  · exact ⟨_, _, _, .clearAll, rfl⟩

theorem exec_cfg {i : Instr} {s t : State} (h : exec i s = .next t) : t.cfg = s.cfg := by
  obtain ⟨u, st, r, hw, rfl⟩ := exec_writes h
  cases hw with
  | block => exact blockUpdated_cfg ..
  | _ => rfl

/-- Settles O54: each kind of write leaves the elements it does not name. -/
theorem eachElementHasItsWriters : Obligations.EachElementHasItsWriters := by
  intro i s t h
  obtain ⟨u, st, r, hw, rfl⟩ := exec_writes h
  cases hw with
  | nothing | push | pop | pushPop => simp
  | window | block | filter | clearRing | clearIir | clearAll => simp

/-! ## Every step keeps the invariant -/

theorem Writes.keeps_inv {i : Instr} {s u : State} (hw : Writes s i u) (h : s.Inv) : u.Inv := by
  cases hw with
  | nothing => exact h
  | push _ v => exact h.pushed v
  | pop => exact h.popped
  | pushPop _ v => exact (h.pushed v).popped
  | window n h1 hC => exact h.setN h1 hC
  | block x f hf =>
    simp only [windowFails, not_or] at hf
    exact h.blockUpdated (by omega) (by omega) _
  | filter | clearIir => exact h.congr rfl rfl
  | clearRing | clearAll => exact .of_reset_ring h.legal rfl

theorem exec_keeps_inv {i : Instr} {s t : State} (hs : s.Inv) (h : exec i s = .next t) : t.Inv := by
  obtain ⟨u, st, r, hw, rfl⟩ := exec_writes h
  exact (hw.keeps_inv hs).respond st r

theorem perform_of_decode {w : CommandWord} {i : Instr} (hd : decode w = .ok i) (s : State) : perform w s = exec i s := by
  simp only [perform, hd]

theorem perform_of_illegal {w : CommandWord} {r : Reject} (hd : decode w = .error r) (s : State) :
    perform w s = .next (raiseError .illegal s) := by
  simp only [perform, hd]

/-- An accepted word runs its command or is answered `ILLEGAL`, which writes no element (60_exceptions.md R222). -/
theorem perform_keeps_inv {w : CommandWord} {s t : State} (hs : s.Inv) (h : perform w s = .next t) : t.Inv := by
  cases hd : decode w with
  | ok i => exact exec_keeps_inv hs (perform_of_decode hd s ▸ h)
  | error r =>
    obtain rfl : raiseError .illegal s = t := by simpa [perform_of_illegal hd] using h
    exact hs.respond ..

/-- Settles O18: an edge resets, delivers, performs a command word or transfers nothing, and each keeps the invariant. -/
theorem everyStepKeepsTheInvariant : Obligations.EveryStepKeepsTheInvariant := by
  intro s t hs h
  obtain ⟨hl, ⟨-, rfl⟩ | ⟨e, rest, -, hedge⟩⟩ := step_cases h
  · exact hs
  · rcases hedge with ⟨-, rfl⟩ | ⟨-, -, -, rfl⟩ | ⟨-, -, w, -, hp⟩ | ⟨-, rfl⟩
    · exact .of_reset_ring hl rfl
    · exact hs.congr rfl rfl
    · refine perform_keeps_inv ?_ hp
      exact hs.congr rfl rfl
    · exact hs.congr rfl rfl

/-! ## What a command reads -/

/-- `RB_PUSH_POP` on a push that brings `tail` onto `head` (41_ring_buffer.md R124). -/
theorem execRbPushPop_evict (v : Cell) {s : State} (ht : s.ring.tail ≤ s.cfg.capacity)
    (he : adv s.ring.N s.ring.tail = s.ring.head) (hh : s.ring.head ≤ s.cfg.capacity) :
    execRbPushPop v s = .next
      (respond .ok (((s.ring.store.write s.ring.tail v).read s.ring.head).setWidth 64) (popped (pushed v s))) := by
  rw [execRbPushPop_eq v ht fun _ => hh, if_pos he]

/-- `RB_PUSH_POP` on a push that does not. -/
theorem execRbPushPop_noEvict (v : Cell) {s : State} (ht : s.ring.tail ≤ s.cfg.capacity)
    (he : adv s.ring.N s.ring.tail ≠ s.ring.head) : execRbPushPop v s = .next (respond .ok 0#64 (pushed v s)) := by
  rw [execRbPushPop_eq v ht fun e => absurd e he, if_neg he]

/-- The ring group that step 3 of 42_block_rms.md R152 leaves depends on the ring group alone. -/
theorem blockUpdated_ring_congr (size : Nat) (sq : Cell) {s s' : State} (hr : s'.ring = s.ring) :
    (blockUpdated size sq s').ring = (blockUpdated size sq s).ring := by
  obtain ⟨c, r, l, p, o⟩ := s'
  obtain rfl : r = s.ring := hr
  by_cases he : adv size s.ring.tail = s.ring.head
  · rw [blockUpdated_evict sq he, blockUpdated_evict sq (s := ⟨c, s.ring, l, p, o⟩) he]
    rfl
  · rw [blockUpdated_noEvict sq he, blockUpdated_noEvict sq (s := ⟨c, s.ring, l, p, o⟩) he]
    rfl

theorem blockResult_congr (size : Nat) {s s' : State} (hr : s'.ring = s.ring) : blockResult size s' = blockResult size s := by
  rw [blockResult, hr, blockResult]

/-- A command of the IIR group, or a square root, neither reads nor writes the ring group (10_state.md R33). -/
theorem exec_of_leavesRing {i : Instr} {s t s' : State} (hi : leavesRing i = true) (h : exec i s = .next t)
    (hc : s'.cfg = s.cfg) (hl : s'.iir = s.iir) :
    ∃ t', exec i s' = .next t' ∧ t'.iir = t.iir ∧ t'.ring = s'.ring ∧ t'.port.rsp = t.port.rsp := by
  obtain ⟨c, r, l, p, o⟩ := s'
  obtain rfl : c = s.cfg := hc
  obtain rfl : l = s.iir := hl
  cases i with
  | isqrtWide | isqrtNarrow | rmsEx | clrEx =>
    cases h
    exact ⟨_, rfl, rfl, rfl, rfl⟩
  | rbPush | rbPop | rbPushPop | rbSetSize | rmsBlock | clrBlock | clrAll => cases hi

/-- A command of the RB+BLK group neither reads nor writes the delay line (10_state.md R33). -/
theorem exec_of_ringGroup {i : Instr} {s t s' : State} (hi : leavesRing i = false) (hall : i ≠ .clrAll)
    (h : exec i s = .next t) (hc : s'.cfg = s.cfg) (hr : s'.ring = s.ring) :
    ∃ t', exec i s' = .next t' ∧ t'.ring = t.ring ∧ t'.iir = s'.iir ∧ t'.port.rsp = t.port.rsp := by
  obtain ⟨c, r, l, p, o⟩ := s'
  obtain rfl : c = s.cfg := hc
  obtain rfl : r = s.ring := hr
  rcases exec_cases h with ⟨x, rfl, -⟩ | ⟨x, rfl, -⟩ | ⟨v, rfl, ht, rfl⟩ | ⟨rfl, hh, rfl⟩ | ⟨v, rfl, ht, he, hh, rfl⟩ |
    ⟨v, rfl, ht, he, rfl⟩ | ⟨n, rfl, ⟨hn, rfl⟩ | ⟨h1, hC, rfl⟩⟩ | ⟨x, f, rfl, hw, rfl⟩ | ⟨x, f, rfl, hw, ht, rfl⟩ |
    ⟨x, rfl, -⟩ | ⟨rfl, rfl⟩ | ⟨rfl, -⟩ | ⟨rfl, -⟩
  · cases hi
  · cases hi
  · exact ⟨_, execRbPush_eq v ht, rfl, rfl, rfl⟩
  · exact ⟨_, execRbPop_eq hh, rfl, rfl, rfl⟩
  · exact ⟨_, execRbPushPop_evict v ht he hh, rfl, rfl, rfl⟩
  · exact ⟨_, execRbPushPop_noEvict v ht he, rfl, rfl, rfl⟩
  · exact ⟨_, if_pos hn, rfl, rfl, rfl⟩
  · exact ⟨_, if_neg (not_or.2 ⟨Nat.one_le_iff_ne_zero.1 h1, Nat.not_lt.2 hC⟩), rfl, rfl, rfl⟩
  · exact ⟨_, execRmsBlock_fails x hw, rfl, rfl, rfl⟩
  · have hring := blockUpdated_ring_congr (windowSize s.cfg f) (squareCell x) (s := s) (s' := ⟨s.cfg, s.ring, l, p, o⟩) rfl
    exact ⟨_, execRmsBlock_ok x hw ht, hring, blockUpdated_iir .., by simp [blockResult_congr _ hring]⟩
  · cases hi
  · exact ⟨_, rfl, rfl, rfl, rfl⟩
  · cases hi
  · exact absurd rfl hall

/-- Settles O55: every command but `CLR_ALL` lies in the one group or in the other, and a command that does the same whatever the
other group holds leaves it, as the command on `s` itself shows. -/
theorem theTwoGroupsAreIndependent : Obligations.TheTwoGroupsAreIndependent := by
  intro i s t h
  refine ⟨fun hall => ?_, fun hsqrt => ?_⟩
  · cases hi : leavesRing i with
    | false =>
      obtain ⟨t₀, h₀, -, hl, -⟩ := exec_of_ringGroup hi hall h rfl rfl
      obtain rfl : t₀ = t := by simpa [h] using h₀.symm
      exact .inl ⟨hl, fun s' hc hr => exec_of_ringGroup hi hall h hc hr⟩
    | true =>
      obtain ⟨t₀, h₀, -, hr, -⟩ := exec_of_leavesRing hi h rfl rfl
      obtain rfl : t₀ = t := by simpa [h] using h₀.symm
      exact .inr ⟨hr, fun s' hc hl => exec_of_leavesRing hi h hc hl⟩
  · obtain ⟨x, rfl⟩ | ⟨x, rfl⟩ := hsqrt <;> cases h
    · exact ⟨⟨rfl, rfl, rfl⟩, fun s' => ⟨_, rfl, rfl⟩⟩
    · exact ⟨⟨rfl, rfl, rfl⟩, fun s' => ⟨_, rfl, rfl⟩⟩

/-- A command's effect and response depend on the configuration and the architectural state alone: each group decides its own
commands, and `CLR_ALL` reads neither. -/
theorem exec_congr {i : Instr} {s s' t : State} (hs : sameBlock s s') (h : exec i s = .next t) :
    ∃ t', exec i s' = .next t' ∧ sameBlock t t' ∧ t'.port.rsp = t.port.rsp := by
  obtain ⟨hc, hr, hl⟩ := hs
  by_cases hall : i = .clrAll
  · subst hall
    cases h
    exact ⟨_, rfl, ⟨hc, by simp [hc], rfl⟩, rfl⟩
  have hcfg {t' : State} (h' : exec i s' = .next t') : t'.cfg = t.cfg := by rw [exec_cfg h', exec_cfg h, hc]
  rcases (theTwoGroupsAreIndependent i s t h).1 hall with ⟨hkept, hsame⟩ | ⟨hkept, hsame⟩
  · obtain ⟨t', h', hring, hiir, hrsp⟩ := hsame s' hc hr
    exact ⟨t', h', ⟨hcfg h', hring, by rw [hiir, hl, hkept]⟩, hrsp⟩
  · obtain ⟨t', h', hiir, hring, hrsp⟩ := hsame s' hc hl
    exact ⟨t', h', ⟨hcfg h', by rw [hring, hr, hkept], hiir⟩, hrsp⟩

/-- Settles O56: a word is decoded without the state, and its command reads no more than the configuration and the architectural
state. -/
theorem nothingElsePersists : Obligations.NothingElsePersists := by
  intro w s s' t hs h
  cases hd : decode w with
  | ok i =>
    rw [perform_of_decode hd] at h ⊢
    exact exec_congr hs h
  | error r =>
    obtain rfl : raiseError .illegal s = t := by simpa [perform_of_illegal hd] using h
    exact ⟨_, perform_of_illegal hd s', hs, rfl⟩

end Sys2Proof.Machine
end

section
/-! Group 20_memory.md: the words on a transport, the only fault, that the block always goes on, and the command stream at the ports. -/

namespace Sys2Proof

/-! ## A word cut into bytes or 32-bit words (20_memory.md R52) -/

/-- A word is read back from all of its bytes. -/
theorem ofNat_numberOfBytes_bytesOf {n count : Nat} (hn : n = 8 * count) (w : BitVec n) :
    BitVec.ofNat n (numberOfBytes (bytesOf w count)) = w := by
  rw [numberOfBytes_bytesOf, ← hn, Nat.mod_eq_of_lt w.isLt, BitVec.ofNat_toNat, BitVec.setWidth_eq]

/-- A piece of a word, put back at its place, has the word's bits there and no other. -/
theorem getLsbD_piece {n : Nat} (w : BitVec n) (k len : Nat) {i : Nat} (hi : i < n) :
    ((w.extractLsb' k len).setWidth n <<< k).getLsbD i = (decide (k ≤ i ∧ i < k + len) && w.getLsbD i) := by
  by_cases hk : k ≤ i
  · simp [hi, hk, show k + (i - k) = i by omega, show i - k < len ↔ i < k + len by omega]
  · simp [hk, show i < k by omega]

/-- The lowest piece needs no shift. -/
theorem getLsbD_lowPiece {n : Nat} (w : BitVec n) (len : Nat) {i : Nat} (hi : i < n) :
    ((w.extractLsb' 0 len).setWidth n).getLsbD i = (decide (i < len) && w.getLsbD i) := by
  simpa using getLsbD_piece w 0 len hi

/-! ## The command word -/

theorem commandOfBytes_commandBytes (w : CommandWord) : commandOfBytes (commandBytes w) = some w := by
  rw [commandOfBytes, commandBytes, if_pos (bytesOf_length w 16), ofNat_numberOfBytes_bytesOf (by decide)]

theorem commandOfBytes_of_length_ne {bs : List Byte} (h : bs.length ≠ 16) : commandOfBytes bs = none := if_neg h

/-- Every bit of the word lies in exactly one of the four pieces. -/
theorem commandOfWords_commandWords (w : CommandWord) : commandOfWords (commandWords w) = some w := by
  refine congrArg some (BitVec.eq_of_getLsbD_eq fun i hi => ?_)
  simp only [BitVec.getLsbD_or, getLsbD_piece w _ _ hi, getLsbD_lowPiece w _ hi, ← Bool.and_or_distrib_right]
  rw [Bool.and_eq_right_iff_imp]
  intro _
  simp only [Bool.or_eq_true, decide_eq_true_eq]
  omega

theorem commandOfWords_of_length_ne {ws : List (BitVec 32)} (h : ws.length ≠ 4) : commandOfWords ws = none := by
  unfold commandOfWords
  split
  · exact absurd rfl h
  · rfl

/-- Settles O7: the bytes of a word are its digits base 256 and the four words its pieces, so both give it back. -/
theorem transportCarriesWholeWords : Obligations.TransportCarriesWholeWords := by
  refine ⟨fun w => ⟨commandOfBytes_commandBytes w, fun k hk => bytesOf_getElem? w hk⟩, fun bs h => ?_,
    fun w => ⟨commandOfWords_commandWords w, fun j hj => ?_⟩, fun ws => commandOfWords_of_length_ne⟩
  · simp [decodeBytes, commandOfBytes_of_length_ne h]
  · interval_cases j <;> rfl

end Sys2Proof

namespace Sys2Proof.Machine

/-! ## The response word -/

theorem responseOfBytes_bytes (r : Response) : responseOfBytes r.bytes = some r.word := by
  rw [responseOfBytes, Response.bytes, if_pos (bytesOf_length r.word 9), ofNat_numberOfBytes_bytesOf (by decide)]

/-- A byte under a free value above it is read back whatever that value is (log 15). -/
theorem setWidth_padded (pad : BitVec 24) (b : BitVec 8) : ((pad.setWidth 32 <<< 8) ||| b.setWidth 32).setWidth 8 = b := by
  apply BitVec.eq_of_getLsbD_eq
  intro i hi
  simp [hi]

/-- Every bit of the word lies in exactly one of the three pieces. -/
theorem responseOfWords_words (r : Response) : responseOfWords r.words = some r.word := by
  refine congrArg some (BitVec.eq_of_getLsbD_eq fun i hi => ?_)
  simp only [setWidth_padded, BitVec.getLsbD_or, getLsbD_piece r.word _ _ hi, getLsbD_lowPiece r.word _ hi,
    ← Bool.and_or_distrib_right]
  rw [Bool.and_eq_right_iff_imp]
  intro _
  simp only [Bool.or_eq_true, decide_eq_true_eq]
  omega

theorem responseOfWords_of_length_ne {ws : List (BitVec 32)} (h : ws.length ≠ 3) : responseOfWords ws = none := by
  unfold responseOfWords
  split
  · exact absurd rfl h
  · rfl

/-- Settles O57: as for a command word; reading the third word drops the bits above the response. -/
theorem transportCarriesWholeResponses : Obligations.TransportCarriesWholeResponses := by
  refine ⟨fun r => ⟨responseOfBytes_bytes r, fun k hk => bytesOf_getElem? r.word hk⟩, fun bs h => if_neg h,
    fun r => ⟨responseOfWords_words r, rfl, fun j hj => ?_, ?_⟩, fun ws => responseOfWords_of_length_ne⟩
  · interval_cases j <;> rfl
  · rintro u ⟨⟩
    rw [← BitVec.setWidth_eq_extractLsb' (by decide), setWidth_padded]

/-! ## A storage access above `C` (20_memory.md R51) -/

theorem execRbPush_fault (v : Cell) {s : State} (h : ¬ s.ring.tail ≤ s.cfg.capacity) :
    execRbPush v s = .fault (.storageIndex s.ring.tail) := by
  simp [execRbPush, push_error v h, Bind.bind, Except.bind]

theorem execRbPop_fault {s : State} (h : ¬ s.ring.head ≤ s.cfg.capacity) :
    execRbPop s = .fault (.storageIndex s.ring.head) := by
  simp [execRbPop, pop_error h, Bind.bind, Except.bind]

theorem execRbPushPop_fault_tail (v : Cell) {s : State} (h : ¬ s.ring.tail ≤ s.cfg.capacity) :
    execRbPushPop v s = .fault (.storageIndex s.ring.tail) := by
  simp [execRbPushPop, pushPop_error v h, Bind.bind, Except.bind]

theorem execRbPushPop_fault_head (v : Cell) {s : State} (ht : s.ring.tail ≤ s.cfg.capacity)
    (he : adv s.ring.N s.ring.tail = s.ring.head) (hh : ¬ s.ring.head ≤ s.cfg.capacity) :
    execRbPushPop v s = .fault (.storageIndex s.ring.head) := by
  simp [execRbPushPop, pushPop_error_head v ht he hh, Bind.bind, Except.bind]

/-- Settles O31: the first access above `C` stops the command. -/
theorem ringAccessAboveCapacityFaults : Obligations.RingAccessAboveCapacityFaults := by
  refine fun s => ⟨fun ht v => ⟨execRbPush_fault v ht.not_ge, execRbPushPop_fault_tail v ht.not_ge⟩,
    fun hh => execRbPop_fault hh.not_ge, fun ht he hh v => execRbPushPop_fault_head v ht he hh.not_ge,
    fun ht x freq hf h1 hC => execRmsBlock_fault x ?_ ht.not_ge⟩
  rw [windowFails, ← freq_toNat_eq_zero, windowSize]
  omega

/-- The ways a step of a legal block can end: with a next state, or at a storage access above `C`, which `tail` or `head` names. -/
inductive GoesOnOrFaults (cfg : Config) (r : RingBlk) : Host.Outcome State Fault Refusal → Prop
  | next (t : State) : GoesOnOrFaults cfg r (.next t)
  | faultTail (h : cfg.capacity < r.tail) : GoesOnOrFaults cfg r (.fault (.storageIndex r.tail))
  | faultHead (h : cfg.capacity < r.head) : GoesOnOrFaults cfg r (.fault (.storageIndex r.head))

/-- A command writes at `tail` first, and reads at `head`. -/
theorem exec_goesOnOrFaults (i : Instr) (s : State) : GoesOnOrFaults s.cfg s.ring (exec i s) := by
  cases i with
  | isqrtWide | isqrtNarrow | rmsEx | clrBlock | clrEx | clrAll => exact .next _
  | rbSetSize n =>
    simp only [exec, execRbSetSize]
    split <;> exact .next _
  | rbPush v =>
    simp only [exec]
    by_cases ht : s.ring.tail ≤ s.cfg.capacity
    · exact execRbPush_eq v ht ▸ .next _
    · exact execRbPush_fault v ht ▸ .faultTail (not_le.1 ht)
  | rbPop =>
    simp only [exec]
    by_cases hh : s.ring.head ≤ s.cfg.capacity
    · exact execRbPop_eq hh ▸ .next _
    · exact execRbPop_fault hh ▸ .faultHead (not_le.1 hh)
  | rbPushPop v =>
    simp only [exec]
    by_cases ht : s.ring.tail ≤ s.cfg.capacity
    · by_cases hh : adv s.ring.N s.ring.tail = s.ring.head → s.ring.head ≤ s.cfg.capacity
      · exact execRbPushPop_eq v ht hh ▸ .next _
      · obtain ⟨he, hh⟩ := Classical.not_imp.1 hh
        exact execRbPushPop_fault_head v ht he hh ▸ .faultHead (not_le.1 hh)
    · exact execRbPushPop_fault_tail v ht ▸ .faultTail (not_le.1 ht)
  | rmsBlock x freq =>
    simp only [exec]
    by_cases hw : windowFails s.cfg freq
    · exact execRmsBlock_fails x hw ▸ .next _
    · by_cases ht : s.ring.tail ≤ s.cfg.capacity
      · exact execRmsBlock_ok x hw ht ▸ .next _
      · exact execRmsBlock_fault x hw ht ▸ .faultTail (not_le.1 ht)

theorem perform_goesOnOrFaults (w : CommandWord) (s : State) : GoesOnOrFaults s.cfg s.ring (perform w s) := by
  cases hd : decode w with
  | ok i => exact perform_of_decode hd s ▸ exec_goesOnOrFaults i s
  | error r => exact perform_of_illegal hd s ▸ .next _

/-- An edge that performs no command word answers a next state. -/
theorem clockEdge_next_or_perform (e : PortIn) (s : State) :
    (∃ t, clockEdge e s = .next t) ∨ ∃ w, clockEdge e s = perform w s := by
  unfold clockEdge
  split
  case isTrue reset => exact .inl ⟨_, rfl⟩
  split
  case isTrue delivery => exact .inl ⟨_, rfl⟩
  split
  case h_2 noCommand => exact .inl ⟨_, rfl⟩
  case h_1 w hcmd =>
    split
    · exact .inr ⟨w, rfl⟩
    · exact .inl ⟨_, rfl⟩

theorem nextEdge_goesOnOrFaults (s : State) : GoesOnOrFaults s.cfg s.ring (nextEdge s) := by
  unfold nextEdge
  split
  · exact .next _
  · rename_i e rest hi
    obtain ⟨t, ht⟩ | ⟨w, hw⟩ := clockEdge_next_or_perform e { s with port := { s.port with inputs := rest } }
    · exact ht ▸ .next t
    · exact hw ▸ perform_goesOnOrFaults w { s with port := { s.port with inputs := rest } }

/-- Settles O20: a block that is refused does not fault, and any other stops at `tail` or `head` only. -/
theorem onlyMissingCellsFault : Obligations.OnlyMissingCellsFault := by
  intro s f h
  by_cases hl : configLegal s.cfg = true
  · have ends := nextEdge_goesOnOrFaults s
    rw [← step_of_legal hl, h] at ends
    cases ends with
    | faultTail ht => exact ⟨_, rfl, ht, .inl rfl⟩
    | faultHead hh => exact ⟨_, rfl, hh, .inr rfl⟩
  · cases step_of_illegal hl ▸ h

/-! ## The block always goes on -/

/-- In a state of the invariant both indices name existing cells. -/
theorem GoesOnOrFaults.next_of_inv {s : State} {o : Host.Outcome State Fault Refusal} (h : GoesOnOrFaults s.cfg s.ring o)
    (hs : s.Inv) : ∃ t, o = .next t := by
  cases h with
  | next t => exact ⟨t, rfl⟩
  | faultTail ht => exact absurd hs.tail_le ht.not_ge
  | faultHead hh => exact absurd hs.head_le hh.not_ge

/-- Settles O19: the only stops of a legal block are at indices the invariant excludes. -/
theorem theBlockAlwaysGoesOn : Obligations.TheBlockAlwaysGoesOn := fun s hs =>
  step_of_legal hs.legal ▸ (nextEdge_goesOnOrFaults s).next_of_inv hs

/-! ## The command stream at the ports (20_memory.md R55)

The machine's state in the middle of a stream is the command-level state at other ports, so the simulation rests on two facts: a command
does the same at any ports, and of its own it writes only the response. -/

/-- The state `s` at the ports `p`. -/
def State.atPort (s : State) (p : Port) : State := { s with port := p }

@[simp] theorem State.atPort_cfg (s : State) (p : Port) : (s.atPort p).cfg = s.cfg := rfl
@[simp] theorem State.atPort_ring (s : State) (p : Port) : (s.atPort p).ring = s.ring := rfl
@[simp] theorem State.atPort_iir (s : State) (p : Port) : (s.atPort p).iir = s.iir := rfl
@[simp] theorem State.atPort_port (s : State) (p : Port) : (s.atPort p).port = p := rfl
@[simp] theorem State.atPort_obs (s : State) (p : Port) : (s.atPort p).obs = s.obs := rfl

theorem blockUpdated_atPort (size : Nat) (sq : Cell) (s : State) (p : Port) :
    blockUpdated size sq (s.atPort p) = (blockUpdated size sq s).atPort p := by
  by_cases he : adv size s.ring.tail = s.ring.head
  · rw [blockUpdated_evict sq he, blockUpdated_evict sq (s := s.atPort p) he]
    rfl
  · rw [blockUpdated_noEvict sq he, blockUpdated_noEvict sq (s := s.atPort p) he]
    rfl

/-- A command does the same at any ports, the observer's record included, and puts the same response there. -/
theorem exec_atPort (p : Port) {i : Instr} {s t : State} (h : exec i s = .next t) :
    exec i (s.atPort p) = .next (t.atPort { p with rsp := t.port.rsp }) := by
  rcases exec_cases h with ⟨x, rfl, rfl⟩ | ⟨x, rfl, rfl⟩ | ⟨v, rfl, ht, rfl⟩ | ⟨rfl, hh, rfl⟩ | ⟨v, rfl, ht, he, hh, rfl⟩ |
    ⟨v, rfl, ht, he, rfl⟩ | ⟨n, rfl, ⟨hn, rfl⟩ | ⟨h1, hC, rfl⟩⟩ | ⟨x, f, rfl, hw, rfl⟩ | ⟨x, f, rfl, hw, ht, rfl⟩ |
    ⟨x, rfl, hx⟩ | ⟨rfl, rfl⟩ | ⟨rfl, rfl⟩ | ⟨rfl, rfl⟩
  · rfl
  · rfl
  · exact execRbPush_eq (s := s.atPort p) v ht
  · exact execRbPop_eq (s := s.atPort p) hh
  · exact execRbPushPop_evict (s := s.atPort p) v ht he hh
  · exact execRbPushPop_noEvict (s := s.atPort p) v ht he
  · exact if_pos hn
  · exact if_neg (not_or.2 ⟨Nat.one_le_iff_ne_zero.1 h1, Nat.not_lt.2 hC⟩)
  · exact execRmsBlock_fails (s := s.atPort p) x hw
  · refine (execRmsBlock_ok (s := s.atPort p) x hw ht).trans ?_
    rw [State.atPort_cfg, blockUpdated_atPort]
    rfl
  · cases hx
    rfl
  · rfl
  · rfl
  · rfl

theorem Writes.port {i : Instr} {s u : State} (hw : Writes s i u) : u.port = s.port := by
  cases hw with
  | block x f hf => obtain ⟨v, v', h | h⟩ := blockUpdated_shape (windowSize s.cfg f) (squareCell x) s <;> rw [h] <;> rfl
  | _ => rfl

/-- Of the ports a command writes the response alone. -/
theorem exec_port {i : Instr} {s t : State} (h : exec i s = .next t) : ∃ r, t.port = { s.port with rsp := some r } := by
  obtain ⟨u, st, r, hw, rfl⟩ := exec_writes h
  exact ⟨⟨st, r⟩, hw.port ▸ rfl⟩

theorem perform_atPort (p : Port) {w : CommandWord} {s t : State} (h : perform w s = .next t) :
    perform w (s.atPort p) = .next (t.atPort { p with rsp := t.port.rsp }) := by
  cases hd : decode w with
  | ok i =>
    rw [perform_of_decode hd] at h ⊢
    exact exec_atPort p h
  | error r =>
    obtain rfl : raiseError .illegal s = t := by simpa [perform_of_illegal hd] using h
    exact perform_of_illegal hd _

theorem perform_port {w : CommandWord} {s t : State} (h : perform w s = .next t) :
    ∃ r, t.port = { s.port with rsp := some r } := by
  cases hd : decode w with
  | ok i => exact exec_port (perform_of_decode hd s ▸ h)
  | error r =>
    obtain rfl : raiseError .illegal s = t := by simpa [perform_of_illegal hd] using h
    exact ⟨_, rfl⟩

/-- In a state of the invariant an accepted word, whatever it is, is answered by a response. -/
theorem perform_responds {s : State} (hs : s.Inv) (w : CommandWord) : ∃ t r, perform w s = .next t ∧ t.port.rsp = some r := by
  obtain ⟨t, h⟩ := (perform_goesOnOrFaults w s).next_of_inv hs
  obtain ⟨r, hp⟩ := perform_port h
  exact ⟨t, r, h, by rw [hp]⟩

/-! ### The edges of an exchange (30_encoding.md R70) -/

/-- The ports between two exchanges: no response outstanding. -/
def idlePort (inputs : List PortIn) (delivered : List Response) : Port :=
  { inputs := inputs, rsp := none, delivered := delivered }

/-- The edge that presents a word performs it. -/
theorem step_present {s : State} (hl : configLegal s.cfg = true) (w : CommandWord) (rest : List PortIn) (d : List Response) :
    step (s.atPort (idlePort (present w :: rest) d)) = perform w (s.atPort (idlePort rest d)) := by
  rw [step_of_legal (by exact hl)]
  rfl

/-- The edge that takes a response delivers it. -/
theorem step_takeResponse {s : State} (hl : configLegal s.cfg = true) (rest : List PortIn) (r : Response) (d : List Response) :
    step (s.atPort { inputs := takeResponse :: rest, rsp := some r, delivered := d }) =
      .next (s.atPort (idlePort rest (d ++ [r]))) := by
  rw [step_of_legal (by exact hl)]
  rfl

theorem run_succ_of_step {s t : State} (h : step s = .next t) (k : Nat) :
    Host.Core.run Sys2Proof.core (k + 1) s = Host.Core.run Sys2Proof.core k t := by
  simp only [Host.Core.run, Host.Check.core_step, h]

/-- One exchange: two edges carry the word in and its response out. -/
theorem run_exchange {w : CommandWord} {s t : State} {r : Response} (hs : s.Inv) (h : perform w s = .next t)
    (hr : t.port.rsp = some r) (rest : List PortIn) (d : List Response) (k : Nat) :
    Host.Core.run Sys2Proof.core (k + 2) (s.atPort (idlePort (present w :: takeResponse :: rest) d)) =
      Host.Core.run Sys2Proof.core k (t.atPort (idlePort rest (d ++ [r]))) := by
  have accepted := (step_present hs.legal w (takeResponse :: rest) d).trans (perform_atPort _ h)
  rw [hr] at accepted
  rw [run_succ_of_step accepted]
  exact run_succ_of_step (step_takeResponse (perform_keeps_inv hs h).legal rest r d) k

/-- The simulation: at idle ports the machine follows the command-level model, exchange by exchange. -/
theorem run_exchanges (ws : List CommandWord) (more : List PortIn) {s : State} (hs : s.Inv) (d : List Response) :
    ∃ u rs, serve ws s = some (u, rs) ∧ rs.length = ws.length ∧
      Host.Core.run Sys2Proof.core (2 * ws.length) (s.atPort (idlePort (exchange ws ++ more) d)) =
        .next (u.atPort (idlePort more (d ++ rs))) := by
  induction ws generalizing s d with
  | nil => exact ⟨s, [], rfl, rfl, by rw [List.append_nil]; rfl⟩
  | cons w ws ih =>
    obtain ⟨t, r, hp, hr⟩ := perform_responds hs w
    have ht : (t.setRsp none).Inv := (perform_keeps_inv hs hp).congr rfl rfl
    obtain ⟨u, rs, hserve, hlen, hrun⟩ := ih ht (d ++ [r])
    refine ⟨u, r :: rs, by simp [serve, hp, hserve, hr], by simp [hlen], ?_⟩
    calc Host.Core.run Sys2Proof.core (2 * ws.length + 2) (s.atPort (idlePort (exchange (w :: ws) ++ more) d))
      _ = Host.Core.run Sys2Proof.core (2 * ws.length) (t.atPort (idlePort (exchange ws ++ more) (d ++ [r]))) :=
        run_exchange hs hp hr _ d _
      _ = .next (u.atPort (idlePort more (d ++ [r] ++ rs))) := hrun
      _ = .next (u.atPort (idlePort more (d ++ r :: rs))) := by rw [List.append_assoc, List.singleton_append]

/-- Settles O14: the ports of `s` are idle, so the simulation starts at `s` itself. -/
theorem portsCarryTheCommandStream : Obligations.PortsCarryTheCommandStream := by
  intro ws more s hs hrsp hi
  obtain ⟨u, rs, hserve, hlen, hrun⟩ := run_exchanges ws more hs s.port.delivered
  have start : s.atPort (idlePort (exchange ws ++ more) s.port.delivered) = s := by
    rw [← hi, idlePort, ← hrsp, State.atPort]
  rw [start] at hrun
  exact ⟨u, rs, _, hserve, hlen, hrun, ⟨rfl, rfl, rfl⟩, rfl, rfl, rfl, rfl⟩

end Sys2Proof.Machine
end

section
/-! Group 30_encoding.md: the command word and its decoder, the assembler's lines, and what an edge does with a word at the ports. -/

namespace Sys2Proof

/-! ## Words by their fields (30_encoding.md R71) -/

/-- Words with equal fields are equal. -/
theorem commandWord_ext_iff {w w' : CommandWord} : w = w' ↔
    fieldA w = fieldA w' ∧ fieldB w = fieldB w' ∧ fieldRsvd w = fieldRsvd w' ∧ fieldOpc w = fieldOpc w' := by
  refine ⟨by rintro rfl; exact ⟨rfl, rfl, rfl, rfl⟩, fun ⟨ha, hb, hr, ho⟩ => ?_⟩
  rw [← commandWord_fields w, ← commandWord_fields w', ha, hb, hr, ho]

@[simp] theorem fieldA_and (w m : CommandWord) : fieldA (w &&& m) = fieldA w &&& fieldA m := BitVec.extractLsb'_and

@[simp] theorem fieldB_and (w m : CommandWord) : fieldB (w &&& m) = fieldB w &&& fieldB m := BitVec.extractLsb'_and

@[simp] theorem fieldRsvd_and (w m : CommandWord) : fieldRsvd (w &&& m) = fieldRsvd w &&& fieldRsvd m :=
  BitVec.extractLsb'_and

@[simp] theorem fieldOpc_and (w m : CommandWord) : fieldOpc (w &&& m) = fieldOpc w &&& fieldOpc m := BitVec.extractLsb'_and

@[simp] theorem fieldA_encode (i : Instr) : fieldA (encode i) = operandA i := fieldA_commandWord ..

@[simp] theorem fieldB_encode (i : Instr) : fieldB (encode i) = operandB i := fieldB_commandWord ..

@[simp] theorem fieldRsvd_encode (i : Instr) : fieldRsvd (encode i) = 0#24 := fieldRsvd_commandWord ..

@[simp] theorem fieldOpc_encode (i : Instr) : fieldOpc (encode i) = opcode i := fieldOpc_commandWord ..

/-- Every command reads the whole of `RSVD`. -/
@[simp] theorem fieldRsvd_readBits (i : Instr) : fieldRsvd (readBits i) = BitVec.allOnes 24 := by
  cases i <;> exact fieldRsvd_commandWord ..

/-- Every command reads the whole of `OPC`. -/
@[simp] theorem fieldOpc_readBits (i : Instr) : fieldOpc (readBits i) = BitVec.allOnes 8 := by
  cases i <;> exact fieldOpc_commandWord ..

/-- The bits a command reads of a word are those of its encoding, said by field. -/
theorem and_readBits_eq_encode_iff {w : CommandWord} {i : Instr} : w &&& readBits i = encode i ↔
    fieldRsvd w = 0#24 ∧ fieldOpc w = opcode i ∧
      fieldA w &&& fieldA (readBits i) = operandA i ∧ fieldB w &&& fieldB (readBits i) = operandB i := by
  rw [commandWord_ext_iff]
  simp only [fieldA_and, fieldB_and, fieldRsvd_and, fieldOpc_and, fieldA_encode, fieldB_encode, fieldRsvd_encode,
    fieldOpc_encode, fieldRsvd_readBits, fieldOpc_readBits, BitVec.and_allOnes]
  tauto

/-- The assembler sets no bit that the command does not read (30_encoding.md R82). -/
theorem encode_and_readBits (i : Instr) : encode i &&& readBits i = encode i := by
  have fields : Laws.Fields.Statement i := by
    cases i with
    | isqrtWide x => exact Laws.Fields.isqrtWide x
    | isqrtNarrow x => exact Laws.Fields.isqrtNarrow x
    | rbPush v => exact Laws.Fields.rbPush v
    | rbPop => exact Laws.Fields.rbPop
    | rbPushPop v => exact Laws.Fields.rbPushPop v
    | rbSetSize n => exact Laws.Fields.rbSetSize n
    | rmsBlock x freq => exact Laws.Fields.rmsBlock x freq
    | rmsEx x => exact Laws.Fields.rmsEx x
    | clrBlock => exact Laws.Fields.clrBlock
    | clrEx => exact Laws.Fields.clrEx
    | clrAll => exact Laws.Fields.clrAll
  obtain ⟨-, -, masked⟩ := fields
  exact masked

/-! ## What decodes to a command (30_encoding.md R75, R78, R84) -/

/-- An operand is read from the low bits of `A`. -/
theorem extract_eq_iff {n : Nat} (hn : n ≤ 64) {a : BitVec 64} {v : BitVec n} :
    a.extractLsb' 0 n = v ↔ a &&& lowOnes n = v.setWidth 64 := by
  rw [← setWidth_extract]
  refine ⟨congrArg _, fun h => ?_⟩
  rw [← extract_setWidth hn (a.extractLsb' 0 n), h, extract_setWidth hn]

/-- Only a command's own opcode selects it. -/
theorem eq_opcode_of_decodeOpcode {o : BitVec 8} {a : BitVec 64} {b : BitVec 32} {i : Instr}
    (h : decodeOpcode o a b = some i) : o = opcode i := by
  obtain ho | unassigned := opcode_cases o
  · simp only [List.mem_cons, List.not_mem_nil, or_false] at ho
    rcases ho with rfl | rfl | rfl | rfl | rfl | rfl | rfl | rfl | rfl | rfl | rfl <;> cases h <;> rfl
  · simp [unassigned] at h

/-- Under a command's opcode `A` and `B` select that command exactly if the bits it reads hold its operands. -/
theorem decodeOpcode_opcode_iff {a : BitVec 64} {b : BitVec 32} (i : Instr) : decodeOpcode (opcode i) a b = some i ↔
    a &&& fieldA (readBits i) = operandA i ∧ b &&& fieldB (readBits i) = operandB i := by
  cases i with
  | isqrtWide | rbPop | rbSetSize | clrBlock | clrEx | clrAll => 
    simp [decodeOpcode, opcode, readBits, operandA, operandB, -BitVec.reduceAllOnes]
  | isqrtNarrow | rbPush | rbPushPop | rmsBlock | rmsEx =>
    simp [decodeOpcode, opcode, readBits, operandA, operandB, extract_eq_iff, -BitVec.reduceAllOnes]

/-- A word decodes to a command exactly if the bits the command reads are those of the command's encoding. -/
theorem decode_eq_ok_iff_masked {w : CommandWord} {i : Instr} : decode w = .ok i ↔ w &&& readBits i = encode i := by
  rw [decode_eq_ok, and_readBits_eq_encode_iff, and_congr_right_iff]
  intro _
  constructor
  · intro h
    have ho := eq_opcode_of_decodeOpcode h
    exact ⟨ho, (decodeOpcode_opcode_iff i).1 (ho ▸ h)⟩
  · rintro ⟨ho, operands⟩
    exact ho ▸ (decodeOpcode_opcode_iff i).2 operands

@[simp] theorem decode_encode (i : Instr) : decode (encode i) = .ok i := decode_eq_ok_iff_masked.2 (encode_and_readBits i)

@[simp] theorem decodeBytes_commandBytes (w : CommandWord) : decodeBytes (commandBytes w) = decode w := by
  rw [decodeBytes, commandOfBytes_commandBytes]

/-- Settles O1: the encoding has the command's own bits and no other, and its bytes carry it whole. -/
theorem decodeInvertsEncode : Obligations.DecodeInvertsEncode := fun i =>
  ⟨decode_encode i, (decodeBytes_commandBytes _).trans (decode_encode i)⟩

/-- Settles O2: the masked word is the encoding. -/
theorem encodeKeepsEveryReadBit : Obligations.EncodeKeepsEveryReadBit := fun _ _ h => (decode_eq_ok_iff_masked.1 h).symm

/-- Settles O3: decoding looks at the bits the command reads, and performing looks at the decoded command. -/
theorem unreadBitsAreIgnored : Obligations.UnreadBitsAreIgnored := by
  intro w w' i h same
  have h' : decode w' = .ok i := decode_eq_ok_iff_masked.2 (same.trans (decode_eq_ok_iff_masked.1 h))
  exact ⟨h', fun s => by rw [Machine.perform_of_decode h', Machine.perform_of_decode h]⟩

/-! ## What decodes to none (30_encoding.md R79) -/

/-- The opcodes that R79 lists are those that R78 does not. -/
theorem unassigned_iff_not_mem (o : BitVec 8) : Machine.unassigned o.toNat ↔
    o ∉ [0x01#8, 0x02#8, 0x10#8, 0x11#8, 0x12#8, 0x13#8, 0x20#8, 0x30#8, 0xF0#8, 0xF1#8, 0xFF#8] := by
  have := o.isLt
  simp only [List.mem_cons, List.not_mem_nil, or_false, ← BitVec.toNat_inj, BitVec.toNat_ofNat]
  omega

theorem decodeOpcode_eq_none_iff {o : BitVec 8} {a : BitVec 64} {b : BitVec 32} :
    decodeOpcode o a b = none ↔ Machine.unassigned o.toNat := by
  rw [unassigned_iff_not_mem]
  constructor
  · intro h ho
    simp only [List.mem_cons, List.not_mem_nil, or_false] at ho
    rcases ho with rfl | rfl | rfl | rfl | rfl | rfl | rfl | rfl | rfl | rfl | rfl <;> cases h
  · exact fun ho => (opcode_cases o).resolve_left ho a b

/-- The illegal command words. -/
theorem decode_error_iff {w : CommandWord} :
    (∃ r, decode w = .error r) ↔ fieldRsvd w ≠ 0#24 ∨ Machine.unassigned (fieldOpc w).toNat := by
  rw [← decodeOpcode_eq_none_iff (a := fieldA w) (b := fieldB w)]
  by_cases hr : fieldRsvd w = 0#24
  · cases h : decodeOpcode (fieldOpc w) (fieldA w) (fieldB w) <;> simp [decode, hr, h]
  · simp [decode, hr]

/-- Settles O4: each assigned opcode has its arm of `decodeOpcode`, with `A`'s low bits read from bit 64 of the word. -/
theorem decodeFollowsTheOpcodeMap : Obligations.DecodeFollowsTheOpcodeMap := by
  intro w
  refine ⟨fun hr => decode_error_iff.2 (.inl hr), fun hr => ?_⟩
  have select {o : BitVec 8} {i : Instr} (h : decodeOpcode o (fieldA w) (fieldB w) = some i)
      (ho : fieldOpc w = o) : decode w = .ok i := decode_eq_ok.2 ⟨hr, ho ▸ h⟩
  have low {n : Nat} (hn : n ≤ 64) : (fieldA w).extractLsb' 0 n = w.extractLsb' 64 n := extract_fieldA hn w
  refine ⟨select rfl, select ?_, select ?_, select rfl, select ?_, select rfl, select ?_, select ?_, select rfl, select rfl,
    select rfl, fun h => decode_error_iff.2 (.inr h)⟩ <;> rw [← low (by decide)] <;> rfl

/-! ## The assembler (30_encoding.md R82) -/

theorem assemble_of_wellFormed {l : AsmLine} (h : l.wellFormed = true) : assemble l = some (encode l.toInstr) := if_pos h

theorem assemble_of_illFormed {l : AsmLine} (h : l.wellFormed = false) : assemble l = none := if_neg (by simp [h])

/-- An assembled word decodes to the command its line stands for. -/
theorem decode_of_assemble {l : AsmLine} {w : CommandWord} (h : assemble l = some w) : decode w = .ok l.toInstr := by
  cases hl : l.wellFormed with
  | true =>
    obtain rfl : encode l.toInstr = w := by simpa [assemble_of_wellFormed hl] using h
    exact decode_encode _
  | false => simp [assemble_of_illFormed hl] at h

theorem toNat_ofInt_of_unsignedRange {n : Nat} {v : Int} (h : unsignedRange n v = true) :
    ((BitVec.ofInt n v).toNat : Int) = v := by
  simp only [unsignedRange, Bool.and_eq_true, decide_eq_true_eq] at h
  obtain ⟨h0, hlt⟩ := h
  rw [BitVec.toNat_ofInt]
  push_cast
  rw [Int.emod_eq_of_lt h0 hlt, Int.toNat_of_nonneg h0]

theorem toInt_ofInt_of_sampleRange {v : Int} (h : sampleRange v = true) : (BitVec.ofInt 16 v).toInt = v := by
  simp only [sampleRange, Bool.and_eq_true, decide_eq_true_eq] at h
  rw [BitVec.toInt_ofInt, Int.bmod_eq_of_le] <;> omega

/-- No operand within its range is lost at its encoded width. -/
theorem toAsm_toInstr {l : AsmLine} (h : l.wellFormed = true) : l.toInstr.toAsm = l := by
  cases l with
  | isqrtWide x | isqrtNarrow x | rbPush x | rbPushPop x | rbSetSize x => exact congrArg _ (toNat_ofInt_of_unsignedRange h)
  | rmsEx x => exact congrArg _ (toInt_ofInt_of_sampleRange h)
  | rmsBlock x freq =>
    obtain ⟨hx, hf⟩ := Bool.and_eq_true_iff.1 h
    exact congrArg₂ _ (toInt_ofInt_of_sampleRange hx) (toNat_ofInt_of_unsignedRange hf)
  | rbPop | clrBlock | clrEx | clrAll => rfl

/-- Settles O6: the command of a well-formed line is named by that line, and its encoding has its own bits only. -/
theorem assembledLinesDecodeToThemselves : Obligations.AssembledLinesDecodeToThemselves :=
  ⟨fun _ => assemble_of_illFormed, fun _ h =>
    ⟨_, _, assemble_of_wellFormed h, decode_encode _, toAsm_toInstr h, encode_and_readBits _⟩⟩

/-- Settles O5: the lines are assembled by evaluation, and an assembled word decodes to its line's command. -/
theorem workedEncodingsAssembleAndDecode : Obligations.WorkedEncodingsAssembleAndDecode := by
  intro p hp
  have assembled : assemble p.1 = some p.2 := by
    revert p
    decide
  exact ⟨assembled, decode_of_assemble assembled⟩

end Sys2Proof

namespace Sys2Proof.Machine

/-! ## The status and result a command is answered with (30_encoding.md R77, R79) -/

/-- A command is answered `OK`, or `SIZE` with `RES = 0`; never `ILLEGAL`. -/
theorem exec_status {i : Instr} {s t : State} (h : exec i s = .next t) :
    ∃ r, t.port.rsp = some r ∧ (r.status = .ok ∨ r.status = .size ∧ r.res = 0#64) := by
  obtain ⟨x, -, rfl⟩ | ⟨x, -, rfl⟩ | ⟨v, -, -, rfl⟩ | ⟨-, -, rfl⟩ | ⟨v, -, -, -, -, rfl⟩ |
    ⟨v, -, -, -, rfl⟩ | ⟨n, -, ⟨-, rfl⟩ | ⟨-, -, rfl⟩⟩ | ⟨x, f, -, -, rfl⟩ | ⟨x, f, -, -, -, rfl⟩ |
    ⟨x, -, hx⟩ | ⟨-, rfl⟩ | ⟨-, rfl⟩ | ⟨-, rfl⟩ := exec_cases h
  on_goal 9 => exact ⟨_, rfl, .inr ⟨rfl, rfl⟩⟩ -- the window of `RMS_BLOCK` fails (42_block_rms.md R153)
  on_goal 10 => cases hx
  all_goals exact ⟨_, rfl, .inl rfl⟩

/-- A response that is not `OK` has `RES = 0`, of an illegal word too. -/
theorem perform_res_eq_zero {w : CommandWord} {s t : State} {r : Response} (h : perform w s = .next t)
    (hr : t.port.rsp = some r) (hst : r.status ≠ .ok) : r.res = 0#64 := by
  cases hd : decode w with
  | ok i =>
    obtain ⟨r', hr', hok | ⟨-, hres⟩⟩ := exec_status (perform_of_decode hd s ▸ h)
    all_goals obtain rfl : r' = r := by simpa [hr] using hr'.symm
    · exact absurd hok hst
    · exact hres
  | error e =>
    obtain rfl : raiseError .illegal s = t := by simpa [perform_of_illegal hd] using h
    obtain rfl : { status := .illegal, res := 0#64 } = r := by simpa using hr
    rfl

/-- R79 leaves `256 - 11` opcodes unassigned. -/
theorem length_filter_unassigned : ((List.range 256).filter fun opc => decide (unassigned opc)).length = 245 := by
  have others : (Finset.range 256).filter unassigned =
      Finset.range 256 \ {0x01, 0x02, 0x10, 0x11, 0x12, 0x13, 0x20, 0x30, 0xF0, 0xF1, 0xFF} := by
    ext o
    simp only [Finset.mem_filter, Finset.mem_range, Finset.mem_sdiff, Finset.mem_insert, Finset.mem_singleton]
    omega
  calc ((List.range 256).filter fun opc => decide (unassigned opc)).length
    _ = Nat.count unassigned 256 := by rw [Nat.count, List.countP_eq_length_filter]
    _ = ((Finset.range 256).filter unassigned).card := Nat.count_eq_card_filter_range ..
    _ = 256 - 11 := by
      rw [others, Finset.card_sdiff_of_subset (by intro o; simp; omega), Finset.card_range]
      rfl

/-- Settles O8: an illegal word meets the error response, which writes no element; any other meets its command. -/
theorem illegalWordsChangeNothing : Obligations.IllegalWordsChangeNothing := by
  refine ⟨fun w s hw => ?_, fun w hw => ?_, by decide, length_filter_unassigned⟩
  · obtain ⟨r, hd⟩ := decode_error_iff.2 hw
    exact ⟨_, perform_of_illegal hd s, rfl, ⟨rfl, rfl, rfl⟩, rfl, rfl, rfl⟩
  · cases hd : decode w with
    | error r => exact absurd (decode_error_iff.1 ⟨r, hd⟩) hw
    | ok i =>
      refine ⟨⟨i, rfl⟩, fun s t h => ?_⟩
      obtain ⟨r, hr, hst | ⟨hst, -⟩⟩ := exec_status (perform_of_decode hd s ▸ h)
      all_goals exact ⟨r, hr, by simp [hst]⟩

/-! ## The fields of a response word (30_encoding.md R76) -/

/-- Bit `i` of a response word, by field. -/
theorem getLsbD_word (r : Response) {i : Nat} (hi : i < 72) :
    r.word.getLsbD i = if i < 64 then r.res.getLsbD i else r.status.code.getLsbD (i - 64) := by
  by_cases h : i < 64
  · simp [Response.word, hi, h]
  · simp [Response.word, hi, h, BitVec.getLsbD_of_ge r.res i (by omega)]

theorem word_res (r : Response) : r.word.extractLsb' 0 64 = r.res := by
  apply BitVec.eq_of_getLsbD_eq
  intro i hi
  simp [getLsbD_word r (show i < 72 by omega), hi]

theorem word_status (r : Response) : r.word.extractLsb' 64 2 = r.status.code := by
  apply BitVec.eq_of_getLsbD_eq
  intro i hi
  simp [getLsbD_word r (show 64 + i < 72 by omega), hi]

theorem word_top (r : Response) : r.word.extractLsb' 66 6 = 0#6 := by
  apply BitVec.eq_of_getLsbD_eq
  intro i hi
  simp [getLsbD_word r (show 66 + i < 72 by omega), hi, show ¬ 66 + i < 64 by omega, show 66 + i - 64 = 2 + i by omega]

/-! ## An edge at the ports (30_encoding.md R70, R85) -/

/-- An edge that presents a word to an idle block performs it, on the state with that edge consumed. -/
theorem step_accept {s : State} {e : PortIn} {rest : List PortIn} {w : CommandWord} (hl : configLegal s.cfg = true)
    (hi : s.port.inputs = e :: rest) (he : e.rst = false) (hw : e.cmd = some w) (hr : s.port.rsp = none) :
    step s = perform w { s with port := { s.port with inputs := rest } } := by
  rw [step_of_legal hl]
  simp [nextEdge, hi, clockEdge, he, hw, rspValid, cmdReady, hr]

/-- An edge on which the host is ready delivers the outstanding response. -/
theorem step_deliver {s : State} {e : PortIn} {rest : List PortIn} {r : Response} (hl : configLegal s.cfg = true)
    (hi : s.port.inputs = e :: rest) (he : e.rst = false) (hr : s.port.rsp = some r) (hready : e.rspReady = true) :
    step s = .next (deliver { s with port := { s.port with inputs := rest } }) := by
  rw [step_of_legal hl]
  simp [nextEdge, hi, clockEdge, he, rspValid, hr, hready]

/-- An edge on which the host is not ready does nothing while a response is outstanding, a word presented or not. -/
theorem step_wait {s : State} {e : PortIn} {rest : List PortIn} {r : Response} (hl : configLegal s.cfg = true)
    (hi : s.port.inputs = e :: rest) (he : e.rst = false) (hr : s.port.rsp = some r) (hready : e.rspReady = false) :
    step s = .next { s with port := { s.port with inputs := rest } } := by
  rw [step_of_legal hl]
  cases hw : e.cmd <;> simp [nextEdge, hi, clockEdge, he, hw, rspValid, cmdReady, hr, hready]

/-- Settles O9: the accepting edge performs the word, and performing is decoding first. -/
theorem stepRunsTheDecodedCommand : Obligations.StepRunsTheDecodedCommand := by
  intro s e rest w hl hi he hw hr
  rw [step_accept hl hi he hw hr]
  exact ⟨fun i hd => perform_of_decode hd _, fun r hd => perform_of_illegal hd _⟩

/-- Settles O10: the accepting edge performs the word, which writes the response and nothing else at the ports. -/
theorem acceptedCommandGetsOneResponse : Obligations.AcceptedCommandGetsOneResponse := by
  intro s e rest w hs hi he hw hr
  have hs₁ : State.Inv { s with port := { s.port with inputs := rest } } := hs.congr rfl rfl
  obtain ⟨t, r, hp, hrsp⟩ := perform_responds hs₁ w
  obtain ⟨r', hport⟩ := perform_port hp
  refine ⟨t, r, (step_accept hs.legal hi he hw hr).trans hp, hrsp, by rw [hport], by rw [hport], by simp [rspData, hrsp],
    word_res r, word_top r, (word_status r).trans ?_, perform_res_eq_zero hp hrsp⟩
  cases r.status <;> rfl

/-- Settles O11: the edge delivers or waits, as the host is ready or not. -/
theorem oneCommandIsOutstanding : Obligations.OneCommandIsOutstanding := by
  intro s e rest r hl hi he hr
  refine ⟨by simp [cmdReady, hr], by simp [rspValid, he, hr], by simp [rspData, hr], ?_⟩
  cases hready : e.rspReady with
  | true => exact ⟨_, step_deliver hl hi he hr hready, by simp [sameBlock, hr]⟩
  | false => exact ⟨_, step_wait hl hi he hr hready, by simp [sameBlock, hr]⟩

end Sys2Proof.Machine
end

section
/-! Group 40_isqrt.md: both square roots are the floor of the square root. The binary search is shown to find it, and the digit
recurrence to take the same decisions as the search. -/

namespace Sys2Proof.Machine

/-! ## The binary search (R100, R101) -/

/-- While the bits from `b` down are not decided, the candidate is a sum. -/
theorem or_shiftLeft_one_eq_add {b r : Nat} (h : 2 ^ (b + 1) ∣ r) : r ||| 1 <<< b = r + 2 ^ b := by
  obtain ⟨q, rfl⟩ := h
  rw [Nat.one_shiftLeft, Nat.two_pow_add_eq_or_of_lt (Nat.pow_lt_pow_right one_lt_two b.lt_succ_self)]

/-- One round of the search, with the candidate as a sum. -/
theorem isqrtSearch_succ (x : Nat) {b r : Nat} (h : 2 ^ (b + 1) ∣ r) : isqrtSearch x (b + 1) r =
    if (r + 2 ^ b) * (r + 2 ^ b) ≤ x then isqrtSearch x b (r + 2 ^ b) else isqrtSearch x b r := by
  simp only [isqrtSearch, or_shiftLeft_one_eq_add h]

/-- Both partial results a round can leave are multiples of `2 ^ b`. -/
theorem two_pow_dvd_add_of_succ {b r : Nat} (h : 2 ^ (b + 1) ∣ r) : 2 ^ b ∣ r ∧ 2 ^ b ∣ r + 2 ^ b := by
  have hr : 2 ^ b ∣ r := (Nat.pow_dvd_pow 2 b.le_succ).trans h
  exact ⟨hr, hr.add (dvd_refl _)⟩

/-- The root stays between the partial result and `2 ^ b` above it, so the search ends at the root. -/
theorem isqrtSearch_eq_sqrt {x b r : Nat} (hb : 2 ^ b ∣ r) (lo : r * r ≤ x) (hi : x < (r + 2 ^ b) * (r + 2 ^ b)) :
    isqrtSearch x b r = x.sqrt := by
  induction b generalizing r with
  | zero => exact Nat.eq_sqrt.2 ⟨lo, hi⟩
  | succ b ih =>
    obtain ⟨reject, accept⟩ := two_pow_dvd_add_of_succ hb
    rw [isqrtSearch_succ x hb]
    split
    next hc =>
      refine ih accept hc ?_
      rwa [add_assoc, ← two_mul, ← pow_succ']
    next hc => exact ih reject lo (not_le.1 hc)

/-- A search of `b` bits finds every root of `b` bits. -/
theorem isqrtSearch_zero_eq_sqrt {x b : Nat} (hx : x < 2 ^ b * 2 ^ b) : isqrtSearch x b 0 = x.sqrt :=
  isqrtSearch_eq_sqrt (dvd_zero _) (Nat.zero_le x) (by rwa [zero_add])

/-! ## The digit recurrence (R106) -/

/-- The recurrence is the search: `op` is what `x` has above the square of the partial result `r`, `res` is `r` scaled, and so
`op ≥ res + one` asks whether the candidate's square is at most `x`. -/
theorem isqrtDigits_eq_isqrtSearch {x i op r : Nat} (hi : 2 ^ i ∣ r) (hop : op + r * r = x) :
    isqrtDigits i op (r * 2 ^ i) = isqrtSearch x i r := by
  induction i generalizing op r with
  | zero => exact mul_one r
  | succ i ih =>
    obtain ⟨reject, accept⟩ := two_pow_dvd_add_of_succ hi
    have one_eq : 1 <<< (2 * i) = 2 ^ i * 2 ^ i := by rw [Nat.one_shiftLeft, two_mul, pow_add]
    have res_half : (r * 2 ^ (i + 1)) >>> 1 = r * 2 ^ i := by
      rw [pow_succ, ← mul_assoc, Nat.shiftRight_one, Nat.mul_div_cancel _ two_pos]
    have square : (r + 2 ^ i) * (r + 2 ^ i) = r * r + (r * 2 ^ (i + 1) + 2 ^ i * 2 ^ i) := by ring
    have same_test : op ≥ r * 2 ^ (i + 1) + 2 ^ i * 2 ^ i ↔ (r + 2 ^ i) * (r + 2 ^ i) ≤ x := by omega
    simp only [isqrtDigits, isqrtSearch_succ x hi, one_eq, res_half, same_test]
    split
    next hc =>
      rw [← add_mul]
      exact ih accept (by omega)
    next => exact ih reject hop

/-! ## The two units (R101, R105) -/

@[simp] theorem toNat_isqrtWide (x : BitVec 64) : (isqrtWide x).toNat = x.toNat.sqrt := by
  rw [isqrtWide, isqrtSearch_zero_eq_sqrt x.isLt, BitVec.toNat_ofNat, Nat.mod_eq_of_lt (Nat.sqrt_lt.2 x.isLt)]

@[simp] theorem toNat_isqrtNarrow (x : BitVec 32) : (isqrtNarrow x).toNat = x.toNat.sqrt := by
  have digits : isqrtDigits 16 x.toNat 0 = isqrtSearch x.toNat 16 0 := by
    simpa only [zero_mul] using isqrtDigits_eq_isqrtSearch (dvd_zero (2 ^ 16)) (add_zero x.toNat)
  rw [isqrtNarrow, digits, isqrtSearch_zero_eq_sqrt x.isLt, BitVec.toNat_ofNat, Nat.mod_eq_of_lt (Nat.sqrt_lt.2 x.isLt)]

/-- The narrow root of `x` is the wide root of `x` padded to 64 bits, as results on the port (R109). -/
theorem setWidth_isqrtNarrow (x : BitVec 32) :
    (isqrtNarrow x).setWidth 64 = (isqrtWide (x.setWidth 64)).setWidth 64 := by
  apply BitVec.eq_of_toNat_eq
  rw [BitVec.toNat_setWidth_of_le (by decide), BitVec.toNat_setWidth_of_le (by decide), toNat_isqrtNarrow, toNat_isqrtWide,
    BitVec.toNat_setWidth_of_le (by decide)]

/-! ## The two commands (R102, R107, R108) -/

/-- What an answer with a root of `n` bits gives the host, and what it leaves (R107). -/
theorem respond_floorRoot {n x : Nat} (hn : n ≤ 64) {root : BitVec n} (h : root.toNat = x.sqrt) (s : State) :
    (root.setWidth 64).toNat < 2 ^ n ∧ isFloorSqrt (root.setWidth 64).toNat x ∧
      sameBlock s (respond .ok (root.setWidth 64) s) ∧ sameHostSide s (respond .ok (root.setWidth 64) s) ∧
      (respond .ok (root.setWidth 64) s).obs = s.obs := by
  rw [BitVec.toNat_setWidth_of_le hn]
  exact ⟨root.isLt, h ▸ ⟨x.sqrt_le, x.lt_succ_sqrt⟩, ⟨rfl, rfl, rfl⟩, ⟨rfl, rfl, rfl⟩, respond_ok_obs _ s⟩

/-- Settles O24: the search finds the root, and a response writes nothing else. -/
theorem isqrtWideAnswersTheFloorRoot : Obligations.IsqrtWideAnswersTheFloorRoot :=
  fun x s => ⟨_, _, rfl, rfl, respond_floorRoot (by decide) (toNat_isqrtWide x) s⟩

/-- Settles O25: the recurrence finds the root, and a response writes nothing else. -/
theorem isqrtNarrowAnswersTheFloorRoot : Obligations.IsqrtNarrowAnswersTheFloorRoot :=
  fun x s => ⟨_, _, rfl, rfl, respond_floorRoot (by decide) (toNat_isqrtNarrow x) s⟩

/-- Settles O26: both commands answer the same root. -/
theorem theTwoSquareRootsAgree : Obligations.TheTwoSquareRootsAgree := by
  intro x s
  simp only [exec, execIsqrtNarrow, execIsqrtWide, setWidth_isqrtNarrow]

end Sys2Proof.Machine
end

section
/-! Group 41_ring_buffer.md: what each ring command does, the ring as a queue, and what the observer counts of it. -/

namespace Sys2Proof.Machine

/-! ## The ring commands one at a time (R121 to R136) -/

/-- Settles O27: the push writes the cell at `tail` and the index. -/
theorem rbPushStoresAtTail : Obligations.RbPushStoresAtTail := by
  intro v s hwf ht
  exact ⟨_, execRbPush_eq v ht, rfl, Memory.read_write_same _ hwf _ v, fun a ha => Memory.read_write_other _ hwf v ha,
    rfl, rfl, rfl, rfl, rfl, rfl, rfl, rfl⟩

/-- Settles O28: the pop writes the index alone. -/
theorem rbPopReadsAtHead : Obligations.RbPopReadsAtHead :=
  fun _ hh => ⟨_, execRbPop_eq hh, rfl, rfl, fun _ => rfl, rfl, rfl, rfl, rfl, rfl, rfl, rfl⟩

/-- Settles O29: whether the push brought `tail` onto `head` decides between the push alone and the push with a pop. -/
theorem rbPushPopEvictsWhenFull : Obligations.RbPushPopEvictsWhenFull := by
  intro v s hwf ht hh
  have stored := Memory.read_write_same _ hwf s.ring.tail v
  have kept (a) (ha : a ≠ s.ring.tail) := Memory.read_write_other _ hwf v ha
  by_cases he : adv s.ring.N s.ring.tail = s.ring.head
  · exact ⟨_, execRbPushPop_evict v ht he (hh he), stored, kept, rfl, fun _ => ⟨rfl, rfl⟩, fun hne => absurd he hne,
      rfl, rfl, rfl, rfl, rfl, rfl⟩
  · exact ⟨_, execRbPushPop_noEvict v ht he, stored, kept, rfl, fun e => absurd e he, fun _ => ⟨rfl, rfl⟩,
      rfl, rfl, rfl, rfl, rfl, rfl⟩

theorem execRbSetSize_ok {n : BitVec 32} {s : State} (h1 : 1 ≤ n.toNat) (hC : n.toNat ≤ s.cfg.capacity) :
    execRbSetSize n s = .next (respond .ok 1#64 (s.setN n.toNat)) := if_neg (by omega)

theorem execRbSetSize_fails {n : BitVec 32} {s : State} (h : n.toNat = 0 ∨ n.toNat > s.cfg.capacity) :
    execRbSetSize n s = .next (respond .ok 0#64 s) := if_pos h

/-- Settles O30: the two conditions exclude each other, and only the second lets a write through. -/
theorem rbSetSizeSetsTheWindow : Obligations.RbSetSizeSetsTheWindow := by
  intro n s
  by_cases h : n.toNat = 0 ∨ n.toNat > s.cfg.capacity
  · exact ⟨_, execRbSetSize_fails h, fun _ => ⟨rfl, rfl⟩, fun _ => by omega, fun _ => rfl, rfl, rfl, rfl, rfl, rfl, rfl, rfl⟩
  · exact ⟨_, execRbSetSize_ok (by omega) (by omega), fun h' => absurd h' h, fun _ => ⟨rfl, rfl⟩, fun _ => rfl,
      rfl, rfl, rfl, rfl, rfl, rfl, rfl⟩

/-! ## Occupancy (10_state.md R29) -/

/-- The occupancy without the remainder: `tail` lies at or above `head`, or has wrapped around. -/
theorem occupancy_eq {r : RingBlk} (hh : r.head ≤ r.N) (ht : r.tail ≤ r.N) :
    occupancy r = if r.head ≤ r.tail then r.tail - r.head else r.tail + (r.N + 1) - r.head := by
  unfold occupancy
  split
  · rw [show r.tail + (r.N + 1) - r.head = r.tail - r.head + (r.N + 1) by omega, Nat.add_mod_right,
      Nat.mod_eq_of_lt (by omega)]
  · exact Nat.mod_eq_of_lt (by omega)

/-- A window is full when one more push would bring `tail` onto `head` (41_ring_buffer.md R124). -/
theorem occupancy_eq_N_iff {r : RingBlk} (hh : r.head ≤ r.N) (ht : r.tail ≤ r.N) :
    occupancy r = r.N ↔ adv r.N r.tail = r.head := by
  rw [occupancy_eq hh ht, adv]
  split <;> split <;> omega

/-- Settles O32: `head` moves to the successor of `tail`, where a full window begins. -/
theorem popOfEmptyReturnsTheStaleCell : Obligations.PopOfEmptyReturnsTheStaleCell := by
  intro s hempty ht hC
  have full : occupancy (popped s).ring = s.ring.N :=
    (occupancy_eq_N_iff (r := (popped s).ring) (adv_le _ _) ht).2 (congrArg (adv s.ring.N) hempty.symm)
  exact ⟨_, execRbPop_eq (by omega), rfl, congrArg (adv s.ring.N) hempty, rfl, adv_le _ _, full⟩

/-! ## `tail` on `head` (R127) and a window set anew (R136) -/

/-- Settles O35: in a window of two positions or more the push that reached `head` wrote another cell, so the oldest is there to be
popped, and the next push writes it. -/
theorem pushOntoHeadOverwritesTheOldest : Obligations.PushOntoHeadOverwritesTheOldest := by
  intro v v' s hs he
  have hwf := Memory.wf_write _ hs.store_wf s.ring.tail v
  have onHead : (pushed v s).ring.tail = s.ring.head := he
  have passes : adv s.ring.N s.ring.head ≠ s.ring.head := adv_ne_self hs.one_le_N
  have oldest : (s.ring.store.write s.ring.tail v).read s.ring.head = s.ring.store.read s.ring.head :=
    Memory.read_write_other _ hs.store_wf v (he ▸ adv_ne_self hs.one_le_N)
  have ht : (pushed v s).ring.tail ≤ s.cfg.capacity := onHead ▸ hs.head_le
  have overwritten (u : Cell) : ((s.ring.store.write s.ring.tail v).write (pushed v s).ring.tail u).read s.ring.head = u :=
    onHead ▸ Memory.read_write_same _ hwf _ u
  have pushPop := execRbPushPop_noEvict v' (s := respond .ok 0#64 (pushed v s)) ht (by simpa [he] using passes)
  refine ⟨_, _, _, _, execRbPush_eq v hs.tail_le, onHead, execRbPop_eq hs.head_le, ?_, pushPop, rfl, rfl, ?_, overwritten v',
    execRbPush_eq v' ht, rfl, overwritten v'⟩
  · simp [answered, oldest]
  · simpa [he] using passes

/-- Settles O37: a full window ends right before `head`, or at its last position when `head` is 0; grown, it has a position there. -/
theorem grownFullWindowEvictsUnlessHeadIsZero : Obligations.GrownFullWindowEvictsUnlessHeadIsZero := by
  intro n v s hs hh ht hfull hgrow hC
  have full : adv s.ring.N s.ring.tail = s.ring.head := (occupancy_eq_N_iff hh ht).1 hfull
  have moves : adv n.toNat s.ring.tail = s.ring.tail + 1 := adv_of_lt (by omega)
  have grown := execRbSetSize_ok (s := s) (n := n) (by omega) hC
  by_cases h0 : s.ring.head = 0
  · have noEvict : adv n.toNat s.ring.tail ≠ s.ring.head := by omega
    exact ⟨_, _, grown, rfl, execRbPushPop_noEvict v hs.tail_le noEvict, fun h => absurd h0 h, fun _ => ⟨rfl, h0⟩⟩
  · have before : s.ring.tail + 1 = s.ring.head := by
      rw [adv] at full
      split at full <;> omega
    have oldest := Memory.read_write_other s.ring.store hs.store_wf v (show s.ring.head ≠ s.ring.tail by omega)
    refine ⟨_, _, grown, rfl, execRbPushPop_evict v hs.tail_le (moves.trans before) hs.head_le, fun _ => ⟨?_, ?_⟩,
      fun h => absurd h h0⟩
    · simp [answered, oldest]
    · exact adv_of_lt (hh.trans_lt hgrow)

/-! ## Command streams -/

theorem commands_cons {i : Instr} {is : List Instr} {s t u : State} {r : Response} {rs : List Response}
    (h : exec i s = .next t) (hr : t.port.rsp = some r) (hs : commands is t = some (u, rs)) :
    commands (i :: is) s = some (u, r :: rs) := by
  simp [commands, h, hr, hs]

theorem commands_append {is js : List Instr} {s t u : State} {rs rs' : List Response}
    (h : commands is s = some (t, rs)) (h' : commands js t = some (u, rs')) :
    commands (is ++ js) s = some (u, rs ++ rs') := by
  induction is generalizing s rs with
  | nil =>
    cases h
    exact h'
  | cons i is ih =>
    simp only [commands] at h
    split at h
    next t₁ hi =>
      obtain ⟨⟨t₂, rs₁⟩, hrest, heq⟩ := Option.map_eq_some_iff.1 h
      cases heq
      simp [commands, hi, ih hrest]
    next => cases h

/-- Settles O36: the successor of `tail` lies in the window and so below `head`, after each push as before it. -/
theorem shrunkWindowNeverEvicts : Obligations.ShrunkWindowNeverEvicts := by
  intro vs
  induction vs with
  | nil => exact fun s _ ht _ => ⟨s, rfl, rfl, ht, rfl⟩
  | cons v vs ih =>
    intro s hh ht hC
    have below := adv_le s.ring.N s.ring.tail
    have step := execRbPushPop_noEvict v (s := s) (by omega) (by omega)
    obtain ⟨t, hrun, hhead, htail, hN⟩ := ih (respond .ok 0#64 (pushed v s)) hh below hC
    exact ⟨t, commands_cons step rfl hrun, hhead, htail, hN⟩

/-! ## The ring as a queue (R120) -/

/-- The ring holds the values `q`, the oldest first at `head`, both indices inside the window. With `N + 1` values, after a push onto
`head`, the indices look as with none. -/
structure RingBlk.Holds (r : RingBlk) (q : List Cell) : Prop where
  store_wf : r.store.wf
  head_le : r.head ≤ r.N
  tail_le : r.tail ≤ r.N
  tail_at : r.head + q.length = r.tail ∨ r.head + q.length = r.tail + (r.N + 1)
  cells : cellsFrom r.store r.N r.head q.length = q

theorem RingBlk.Holds.empty {r : RingBlk} (hwf : r.store.wf) (he : r.head = r.tail) (ht : r.tail ≤ r.N) : r.Holds [] :=
  ⟨hwf, he ▸ ht, ht, .inl he, rfl⟩

/-- Up to `N` values are what is buffered (10_state.md R29). -/
theorem RingBlk.Holds.buffered_eq {r : RingBlk} {q : List Cell} (h : r.Holds q) (hlen : q.length ≤ r.N) : buffered r = q := by
  obtain ⟨-, head_le, tail_le, tail_at, cells⟩ := h
  have occ : occupancy r = q.length := by
    rw [occupancy_eq head_le tail_le]
    split <;> omega
  rw [buffered, occ, cells]

/-- The next push brings `tail` onto `head` exactly when the window is full. -/
theorem RingBlk.Holds.adv_tail_eq_head_iff {r : RingBlk} {q : List Cell} (h : r.Holds q) (hlen : q.length ≤ r.N) :
    adv r.N r.tail = r.head ↔ q.length = r.N := by
  obtain ⟨-, head_le, tail_le, tail_at, -⟩ := h
  rw [adv]
  split <;> omega

/-- Writing the position `k` after `i`, before the run of cells comes round to `i` again, adds a cell at its end. -/
theorem cellsFrom_write_end {m : Memory} (hwf : m.wf) {n i t k : Nat} (v : Cell) (hi : i ≤ n) (ht : t ≤ n) (hk : k ≤ n)
    (hat : i + k = t ∨ i + k = t + (n + 1)) : cellsFrom (m.write t v) n i (k + 1) = cellsFrom m n i k ++ [v] := by
  induction k generalizing i with
  | zero =>
    obtain rfl : i = t := by omega
    simp [cellsFrom, Memory.read_write_same m hwf]
  | succ k ih =>
    have other : (m.write t v).read i = m.read i := Memory.read_write_other m hwf v (by omega)
    have later : adv n i + k = t ∨ adv n i + k = t + (n + 1) := by
      rw [adv]
      split <;> omega
    rw [cellsFrom, other, ih (adv_le n i) (by omega) later]
    rfl

/-- A push onto a queue of at most `N` values adds its value at the end. -/
theorem RingBlk.Holds.push {s : State} {q : List Cell} (h : s.ring.Holds q) (hlen : q.length ≤ s.ring.N) (v : Cell) :
    (pushed v s).ring.Holds (q ++ [v]) where
  store_wf := Memory.wf_write _ h.store_wf _ v
  head_le := h.head_le
  tail_le := adv_le _ _
  tail_at := by
    obtain ⟨-, head_le, tail_le, tail_at, -⟩ := h
    simp only [pushed_head, pushed_tail, pushed_N, List.length_append, List.length_singleton, adv]
    split <;> omega
  cells := by
    rw [List.length_append]
    exact (cellsFrom_write_end h.store_wf v h.head_le h.tail_le hlen h.tail_at).trans (by rw [h.cells])

/-- The cell at `head` is the oldest value. -/
theorem RingBlk.Holds.read_head {r : RingBlk} {e : Cell} {q : List Cell} (h : r.Holds (e :: q)) : r.store.read r.head = e :=
  (List.cons.inj h.cells).1

/-- A pop takes the oldest value away. -/
theorem RingBlk.Holds.pop {s : State} {e : Cell} {q : List Cell} (h : s.ring.Holds (e :: q)) : (popped s).ring.Holds q where
  store_wf := h.store_wf
  head_le := adv_le _ _
  tail_le := h.tail_le
  tail_at := by
    obtain ⟨-, head_le, tail_le, tail_at, -⟩ := h
    simp only [popped_head, popped_tail, popped_N, List.length_cons, adv] at tail_at ⊢
    split <;> omega
  cells := (List.cons.inj h.cells).2

/-- What pushes and pops leave alone. -/
structure SameBesideBuffer (s t : State) : Prop where
  cfg : t.cfg = s.cfg
  N : t.ring.N = s.ring.N
  val : t.ring.val = s.ring.val
  iir : t.iir = s.iir

theorem SameBesideBuffer.refl (s : State) : SameBesideBuffer s s := ⟨rfl, rfl, rfl, rfl⟩

theorem SameBesideBuffer.trans {s t u : State} (h : SameBesideBuffer s t) (h' : SameBesideBuffer t u) : SameBesideBuffer s u :=
  ⟨h'.cfg.trans h.cfg, h'.N.trans h.N, h'.val.trans h.val, h'.iir.trans h.iir⟩

theorem SameBesideBuffer.of_pushed (v : Cell) (s : State) : SameBesideBuffer s (pushed v s) := ⟨rfl, rfl, rfl, rfl⟩

theorem SameBesideBuffer.of_popped (s : State) : SameBesideBuffer s (popped s) := ⟨rfl, rfl, rfl, rfl⟩

theorem SameBesideBuffer.respond {s t : State} (h : SameBesideBuffer s t) (st : Status) (r : Word64) :
    SameBesideBuffer s (respond st r t) := ⟨h.cfg, h.N, h.val, h.iir⟩

/-! ## First in, first out (R127) -/

/-- Pushes that find room, the last perhaps bringing `tail` onto `head`, append their values. -/
theorem commands_pushes (vs : List Cell) {s : State} {q : List Cell} (hq : s.ring.Holds q) (hC : s.ring.N ≤ s.cfg.capacity)
    (hlen : q.length + vs.length ≤ s.ring.N + 1) :
    ∃ t, commands (vs.map .rbPush) s = some (t, List.replicate vs.length { status := .ok, res := 0#64 }) ∧
      t.ring.Holds (q ++ vs) ∧ SameBesideBuffer s t := by
  induction vs generalizing s q with
  | nil => exact ⟨s, rfl, by rwa [List.append_nil], .refl s⟩
  | cons v vs ih =>
    rw [List.length_cons] at hlen
    have step := execRbPush_eq v (hq.tail_le.trans hC)
    have room : (q ++ [v]).length + vs.length ≤ s.ring.N + 1 := by
      rw [List.length_append, List.length_singleton]
      omega
    obtain ⟨t, hrun, ht, hsame⟩ := ih (s := respond .ok 0#64 (pushed v s)) (hq.push (by omega) v) hC room
    rw [List.append_assoc, List.singleton_append] at ht
    exact ⟨t, commands_cons step rfl hrun, ht, ((SameBesideBuffer.of_pushed v s).respond _ _).trans hsame⟩

/-- As many pops as there are values answer them in order and leave none. -/
theorem commands_pops (q : List Cell) {s : State} (hq : s.ring.Holds q) (hC : s.ring.N ≤ s.cfg.capacity) :
    ∃ t, commands (List.replicate q.length .rbPop) s = some (t, q.map fun v => { status := .ok, res := v.setWidth 64 }) ∧
      t.ring.Holds [] ∧ SameBesideBuffer s t := by
  induction q generalizing s with
  | nil => exact ⟨s, rfl, hq, .refl s⟩
  | cons v q ih =>
    have step := execRbPop_eq (hq.head_le.trans hC)
    rw [hq.read_head] at step
    obtain ⟨t, hrun, ht, hsame⟩ := ih (s := respond .ok (v.setWidth 64) (popped s)) hq.pop hC
    exact ⟨t, commands_cons step rfl hrun, ht, ((SameBesideBuffer.of_popped s).respond _ _).trans hsame⟩

/-- Settles O34: the pushes make a queue of all the values, and the pops empty it. -/
theorem pushedValuesPopInOrder : Obligations.PushedValuesPopInOrder := by
  intro vs s hwf hempty ht hC hlen
  obtain ⟨t, hpush, hold, hsame⟩ := commands_pushes vs (.empty hwf hempty ht) hC (by simpa using hlen)
  obtain ⟨u, hpop, hnone, hsame'⟩ := commands_pops vs hold (by rwa [hsame.N, hsame.cfg])
  obtain emptied | wrapped := hnone.tail_at
  · exact ⟨u, commands_append hpush hpop, emptied, hsame'.N.trans hsame.N⟩
  · exact absurd hnone.head_le (by simp at wrapped; omega)

/-! ## The sliding window (R132) -/

/-- The queue `q` as a window of `n` cells: a 0 for each value still to come. -/
def padded (n : Nat) (q : List Cell) : List Cell := List.replicate (n - q.length) 0#32 ++ q

theorem padded_nil (n : Nat) : padded n [] = List.replicate n 0#32 := List.append_nil _

theorem padded_of_full {n : Nat} {q : List Cell} (h : q.length = n) : padded n q = q := by
  simp [padded, h]

theorem padded_of_lt {n : Nat} {q : List Cell} (h : q.length < n) (v : Cell) :
    padded n q ++ [v] = 0#32 :: padded n (q ++ [v]) := by
  rw [padded, padded, show n - q.length = n - (q ++ [v]).length + 1 by simp; omega, List.replicate_succ, List.cons_append,
    List.cons_append, List.append_assoc]

theorem lastOf_eq_reverse_take {α : Type} (n : Nat) (xs : List α) : lastOf n xs = (xs.reverse.take n).reverse :=
  List.rtake_eq_reverse_take_reverse xs n

theorem lastOf_of_length_le {α : Type} {n : Nat} {xs : List α} (h : xs.length ≤ n) : lastOf n xs = xs := by
  rw [lastOf, Nat.sub_eq_zero_of_le h, List.drop_zero]

theorem lastOf_cons_of_length {α : Type} {n : Nat} (x : α) {xs : List α} (h : xs.length = n) : lastOf n (x :: xs) = xs := by
  simp [lastOf, h]

theorem length_lastOf_le {α : Type} (n : Nat) (xs : List α) : (lastOf n xs).length ≤ n := by
  rw [lastOf, List.length_drop]
  omega

/-- What falls out of the window does not come back. -/
theorem lastOf_lastOf_append {α : Type} (n : Nat) (xs ys : List α) : lastOf n (lastOf n xs ++ ys) = lastOf n (xs ++ ys) := by
  simp only [lastOf_eq_reverse_take, List.reverse_append, List.reverse_reverse, List.take_append, List.take_take]
  rw [Nat.min_eq_left (Nat.sub_le _ _)]

/-- A push-pop shifts the window by one cell: it answers what falls out of `N` cells, a 0 while the window fills. -/
theorem RingBlk.Holds.execPushPop {s : State} {q : List Cell} (hq : s.ring.Holds q) (hlen : q.length ≤ s.ring.N)
    (hC : s.ring.N ≤ s.cfg.capacity) (v : Cell) :
    ∃ e u, exec (.rbPushPop v) s = .next (respond .ok (e.setWidth 64) u) ∧
      padded s.ring.N q ++ [v] = e :: padded s.ring.N (lastOf s.ring.N (q ++ [v])) ∧
      u.ring.Holds (lastOf s.ring.N (q ++ [v])) ∧ SameBesideBuffer s u := by
  have queued := hq.push hlen v
  have full_iff := hq.adv_tail_eq_head_iff hlen
  have ht := hq.tail_le.trans hC
  rcases hlen.lt_or_eq with filling | full
  · rw [lastOf_of_length_le (by simpa using filling)]
    exact ⟨0#32, _, execRbPushPop_noEvict v ht fun he => filling.ne (full_iff.1 he), padded_of_lt filling v, queued,
      .of_pushed v s⟩
  · obtain ⟨e, q', hcons⟩ := List.exists_cons_of_ne_nil (List.append_ne_nil_of_right_ne_nil q (List.cons_ne_nil v []))
    have hlen' : q'.length = s.ring.N := by simpa [full] using congrArg List.length hcons.symm
    rw [hcons] at queued
    rw [padded_of_full full, hcons, lastOf_cons_of_length e hlen', padded_of_full hlen']
    have step := execRbPushPop_evict v ht (full_iff.2 full) (hq.head_le.trans hC)
    exact ⟨e, _, queued.read_head ▸ step, rfl, queued.pop, (SameBesideBuffer.of_pushed v s).trans (.of_popped _)⟩

/-- The answers of a stream of push-pops are the cells the window starts with and the values pushed, as many as there are commands. -/
theorem commands_pushPops (vs : List Cell) {s : State} {q : List Cell} (hq : s.ring.Holds q) (hlen : q.length ≤ s.ring.N)
    (hC : s.ring.N ≤ s.cfg.capacity) :
    ∃ t, commands (vs.map .rbPushPop) s =
        some (t, ((padded s.ring.N q ++ vs).take vs.length).map fun e => { status := .ok, res := e.setWidth 64 }) ∧
      t.ring.Holds (lastOf s.ring.N (q ++ vs)) ∧ SameBesideBuffer s t := by
  induction vs generalizing s q with
  | nil => exact ⟨s, rfl, by rwa [List.append_nil, lastOf_of_length_le hlen], .refl s⟩
  | cons v vs ih =>
    obtain ⟨e, u, step, shift, hu, hsame⟩ := hq.execPushPop hlen hC v
    obtain ⟨t, hrun, ht, hsame'⟩ := ih (s := respond .ok (e.setWidth 64) u) hu
      (by simpa [hsame.N] using length_lastOf_le _ _) (by simpa [hsame.N, hsame.cfg] using hC)
    have window : padded s.ring.N q ++ v :: vs = e :: (padded s.ring.N (lastOf s.ring.N (q ++ [v])) ++ vs) := by
      rw [List.append_cons, shift, List.cons_append]
    rw [respond_ring, hsame.N] at hrun ht
    rw [lastOf_lastOf_append, List.append_assoc, List.singleton_append] at ht
    rw [window]
    exact ⟨t, commands_cons step rfl hrun, ht, (hsame.respond _ _).trans hsame'⟩

/-- Settles O33: an empty buffer is a window of zeros. -/
theorem slidingWindowLaw : Obligations.SlidingWindowLaw := by
  intro vs s hwf hempty ht hC
  obtain ⟨t, hrun, hold, hsame⟩ := commands_pushPops vs (.empty hwf hempty ht) (Nat.zero_le _) hC
  rw [padded_nil] at hrun
  have last : buffered t.ring = lastOf s.ring.N vs := hold.buffered_eq (hsame.N ▸ length_lastOf_le _ _)
  exact ⟨t, hrun, last, hsame.N, hsame.val, hsame.iir⟩

/-! ## What the observer counts (93_implementation_defined.md U1, 90_conflicts.md C10) -/

@[simp] theorem blockUpdated_tail (size : Nat) (sq : Cell) (s : State) :
    (blockUpdated size sq s).ring.tail = adv size s.ring.tail := by
  by_cases he : adv size s.ring.tail = s.ring.head
  · simp [blockUpdated_evict sq he]
  · simp [blockUpdated_noEvict sq he]

@[simp] theorem blockUpdated_pushes (size : Nat) (sq : Cell) (s : State) :
    (blockUpdated size sq s).obs.pushes = s.obs.pushes + 1 := by
  obtain ⟨v, v', h | h⟩ := blockUpdated_shape size sq s <;> simp [h]

@[simp] theorem blockUpdated_pops (size : Nat) (sq : Cell) (s : State) :
    (blockUpdated size sq s).obs.pops = s.obs.pops + if adv size s.ring.tail = s.ring.head then 1 else 0 := by
  by_cases he : adv size s.ring.tail = s.ring.head
  · simp [blockUpdated_evict sq he, he]
  · simp [blockUpdated_noEvict sq he, he]

/-- Before it responds, a command leaves the observer's counts, counts a push, a pop or both in this order, or starts them again. -/
theorem Writes.obs_cases {i : Instr} {s u : State} (hw : Writes s i u) : u.obs = s.obs ∨ u.obs = s.countPush.obs ∨
    u.obs = s.countPop.obs ∨ u.obs = s.countPush.countPop.obs ∨ u.obs = s.clearRing.obs := by
  cases hw with
  | nothing | window | filter | clearIir => exact .inl rfl
  | push => exact .inr (.inl rfl)
  | pop => exact .inr (.inr (.inl rfl))
  | pushPop => exact .inr (.inr (.inr (.inl rfl)))
  | clearRing | clearAll => exact .inr (.inr (.inr (.inr rfl)))
  | block x f hf =>
    obtain ⟨v, v', h | h⟩ := blockUpdated_shape (windowSize s.cfg f) (squareCell x) s
    · exact h ▸ .inr (.inr (.inr (.inl rfl)))
    · exact h ▸ .inr (.inl rfl)

@[simp] theorem Status.count_popEmpty_violation (st : Status) : st.violation.count .popEmpty = 0 := by
  cases st <;> rfl

/-- While the contract is kept, a push cannot break it, and a pop breaks it exactly when it finds as many pops as pushes: a new
entry stands for a breach. -/
theorem exec_count_popEmpty {i : Instr} {s t : State} (hs : s.obs.pops ≤ s.obs.pushes) (h : exec i s = .next t) :
    t.obs.record.count .popEmpty = s.obs.record.count .popEmpty + if t.obs.pushes < t.obs.pops then 1 else 0 := by
  obtain ⟨u, st, r, hw, rfl⟩ := exec_writes h
  simp only [respond_obs_record, respond_obs_pushes, respond_obs_pops, List.count_append, Status.count_popEmpty_violation]
  rcases hw.obs_cases with hu | hu | hu | hu | hu <;> simp only [hu]
  · simp [hs]
  · have kept : ¬ s.obs.pushes + 1 < s.obs.pops := by omega
    simp [kept]
  · by_cases hp : s.obs.pops < s.obs.pushes <;> simp [hp]
  · simp [hs]
  · simp

/-- Which commands count a push, which a pop and which start the counts again: each case is one command, which meets one of the five
conditions. -/
theorem exec_counts {i : Instr} {s t : State} (h : exec i s = .next t) :
    (i = .clrBlock ∨ i = .clrAll → t.obs.pushes = 0 ∧ t.obs.pops = 0) ∧
    ((∃ v, i = .rbPush v) → t.obs.pushes = s.obs.pushes + 1 ∧ t.obs.pops = s.obs.pops) ∧
    (i = .rbPop → t.obs.pushes = s.obs.pushes ∧ t.obs.pops = s.obs.pops + 1) ∧
    ((∃ v, i = .rbPushPop v) ∨ (∃ x freq, i = .rmsBlock x freq ∧ rspStatus t = some .ok) →
      t.obs.pushes = s.obs.pushes + 1 ∧ t.obs.pops = s.obs.pops + (if t.ring.tail = s.ring.head then 1 else 0)) ∧
    (leavesRing i = true ∨ (∃ n, i = .rbSetSize n) ∨ (∃ x freq, i = .rmsBlock x freq ∧ rspStatus t ≠ some .ok) →
      t.obs.pushes = s.obs.pushes ∧ t.obs.pops = s.obs.pops) := by
  rcases exec_cases h with ⟨x, rfl, rfl⟩ | ⟨x, rfl, rfl⟩ | ⟨v, rfl, -, rfl⟩ | ⟨rfl, -, rfl⟩ | ⟨v, rfl, -, he, -, rfl⟩ |
    ⟨v, rfl, -, he, rfl⟩ | ⟨n, rfl, ⟨-, rfl⟩ | ⟨-, -, rfl⟩⟩ | ⟨x, f, rfl, -, rfl⟩ | ⟨x, f, rfl, hw, -, rfl⟩ |
    ⟨x, rfl, hx⟩ | ⟨rfl, rfl⟩ | ⟨rfl, rfl⟩ | ⟨rfl, rfl⟩
  on_goal 11 => cases hx -- `RMS_EX`
  on_goal 6 => simp [leavesRing, he] -- `RB_PUSH_POP` that evicts nothing
  on_goal 5 => simp [leavesRing, he] -- and one that evicts
  all_goals simp [leavesRing]

/-- Settles O23: a push-pop counts its pop after its push; an illegal word counts nothing, and a reset edge starts again. -/
theorem popsBeyondPushesAreRecorded : Obligations.PopsBeyondPushesAreRecorded := by
  refine ⟨fun i s t h => exec_counts h, fun w r s t hd h => ?_, fun s e rest hl hi he => ⟨_, step_of_rst hl hi he, rfl, rfl⟩,
    fun i s t hs h => ?_⟩
  · obtain rfl : raiseError .illegal s = t := by simpa [perform_of_illegal hd] using h
    exact ⟨rfl, rfl⟩
  · rw [exec_count_popEmpty hs h]
    split <;> omega

end Sys2Proof.Machine
end

section
/-! Group 42_block_rms.md: what one `RMS_BLOCK` does, and the running sum over a stream of them. -/

namespace Sys2Proof.Machine

/-! ## The window-size precondition (R153) -/

theorem windowFails_iff {cfg : Config} {freq : BitVec 32} : windowFails cfg freq ↔
    freq.toNat = 0 ∨ cfg.sampleRate * 10 / freq.toNat = 0 ∨ cfg.sampleRate * 10 / freq.toNat > cfg.capacity := by
  rw [freq_toNat_eq_zero, windowFails, windowSize]

/-- The precondition in one line: at a zero frequency the quotient is 0 as well. -/
theorem not_windowFails_iff {cfg : Config} {freq : BitVec 32} : ¬ windowFails cfg freq ↔
    1 ≤ cfg.sampleRate * 10 / freq.toNat ∧ cfg.sampleRate * 10 / freq.toNat ≤ cfg.capacity := by
  rw [windowFails_iff]
  by_cases h0 : freq.toNat = 0
  · simp [h0]
  · simp [h0, Nat.one_le_iff_ne_zero]

/-- `RMS_BLOCK` responds `SIZE` when the precondition fails, and otherwise `OK` or not at all. -/
theorem rmsBlock_status {x : Sample} {freq : BitVec 32} {s t : State} (h : exec (.rmsBlock x freq) s = .next t) :
    rspStatus t = some (if windowFails s.cfg freq then .size else .ok) := by
  by_cases hw : windowFails s.cfg freq
  · cases (execRmsBlock_fails x hw).symm.trans h
    rw [if_pos hw, rspStatus_raiseError]
  · by_cases ht : s.ring.tail ≤ s.cfg.capacity
    · cases (execRmsBlock_ok x hw ht).symm.trans h
      rw [if_neg hw, rspStatus_respond]
    · cases (execRmsBlock_fault x hw ht).symm.trans h

/-- Settles O39: a failed precondition meets the error response, which writes no element; else the status is `OK`. -/
theorem rmsBlockRefusesBadWindows : Obligations.RmsBlockRefusesBadWindows := by
  intro x freq s
  rw [← windowFails_iff]
  refine ⟨fun hw => ⟨_, execRmsBlock_fails x hw, rfl, ⟨rfl, rfl, rfl⟩, rfl, rfl, rfl⟩, fun t r h hr hst => ?_⟩
  by_contra hw
  have ok := rmsBlock_status h
  rw [if_neg hw, rspStatus, hr] at ok
  exact hst (Option.some.inj ok)

/-- Settles O40: at an existing `tail` the precondition decides. -/
theorem rmsBlockAtMinFreq : Obligations.RmsBlockAtMinFreq := by
  intro x freq s hs hf
  rw [← hf, ← not_windowFails_iff]
  refine ⟨?_, fun hw => ⟨_, _, execRmsBlock_ok x hw hs.tail_le, rfl⟩⟩
  rintro ⟨t, r, h, hr⟩ hw
  have size := rmsBlock_status h
  rw [if_pos hw, rspStatus, hr] at size
  cases size

/-! ## What a successful `RMS_BLOCK` does (R152, R154) -/

@[simp] theorem blockUpdated_port (size : Nat) (sq : Cell) (s : State) : (blockUpdated size sq s).port = s.port := by
  obtain ⟨v, v', h | h⟩ := blockUpdated_shape size sq s <;> rw [h] <;> rfl

@[simp] theorem blockUpdated_N (size : Nat) (sq : Cell) (s : State) : (blockUpdated size sq s).ring.N = size := by
  obtain ⟨v, v', h | h⟩ := blockUpdated_shape size sq s <;> rw [h] <;> rfl

@[simp] theorem blockUpdated_store (size : Nat) (sq : Cell) (s : State) :
    (blockUpdated size sq s).ring.store = s.ring.store.write s.ring.tail sq := by
  obtain ⟨v, v', h | h⟩ := blockUpdated_shape size sq s <;> rw [h] <;> rfl

@[simp] theorem toNat_blockResult (size : Nat) (s : State) :
    (blockResult size s).toNat = (s.ring.val.toNat / size).sqrt := by
  have fits : s.ring.val.toNat / size < 2 ^ 64 := (Nat.div_le_self _ _).trans_lt s.ring.val.isLt
  rw [blockResult, BitVec.toNat_setWidth_of_le (by decide), toNat_isqrtWide, BitVec.toNat_ofNat, Nat.mod_eq_of_lt fits]

theorem blockResult_isFloorSqrt (size : Nat) (s : State) :
    isFloorSqrt (blockResult size s).toNat (s.ring.val.toNat / size) ∧ (blockResult size s).toNat < 2 ^ 32 := by
  rw [toNat_blockResult]
  exact ⟨⟨Nat.sqrt_le _, Nat.lt_succ_sqrt _⟩, Nat.sqrt_lt.2 ((Nat.div_le_self _ _).trans_lt s.ring.val.isLt)⟩

/-- Settles O38: the push advances `tail` in the new window, and decides whether a cell is evicted. -/
theorem rmsBlockUpdatesTheRunningSum : Obligations.RmsBlockUpdatesTheRunningSum := by
  intro x freq s hwf ht _ h1 hC
  have hw : ¬ windowFails s.cfg freq := not_windowFails_iff.2 ⟨h1, hC⟩
  obtain ⟨root, root_lt⟩ := blockResult_isFloorSqrt (windowSize s.cfg freq)
    (blockUpdated (windowSize s.cfg freq) (squareCell x) s)
  refine ⟨_, _, execRmsBlock_ok x hw ht, rfl, blockUpdated_N .., ?_, fun a ha => ?_, ?_, fun he => ?_, fun he => ?_, ?_,
    root_lt, blockUpdated_iir .., blockUpdated_cfg .., by simp, by simp⟩
  · rw [respond_ring, blockUpdated_store, Memory.read_write_same _ hwf, squareCell_toNat]
  · rw [respond_ring, blockUpdated_store, Memory.read_write_other _ hwf _ ha]
  · simp [adv]
  · have evicts : adv (windowSize s.cfg freq) s.ring.tail = s.ring.head := by simpa using he
    simp [blockUpdated_evict _ evicts, squareCell_setWidth, adv]
  · have noEvict : adv (windowSize s.cfg freq) s.ring.tail ≠ s.ring.head := by simpa using he
    simp [blockUpdated_noEvict _ noEvict, squareCell_setWidth]
  · rwa [respond_ring, blockUpdated_N]

/-! ## `MIN_FREQ` and `MAX_FREQ` (R160) -/

/-- The state `s` of a block built with other frequency limits. -/
def State.withLimits (s : State) (lo : Nat) (hi : Option Nat) : State :=
  { s with cfg := { s.cfg with minFreq := lo, maxFreq := hi } }

theorem blockUpdated_withLimits (size : Nat) (sq : Cell) (s : State) (lo : Nat) (hi : Option Nat) :
    blockUpdated size sq (s.withLimits lo hi) = (blockUpdated size sq s).withLimits lo hi := by
  by_cases he : adv size s.ring.tail = s.ring.head
  · rw [blockUpdated_evict sq he, blockUpdated_evict sq (s := s.withLimits lo hi) he]
    rfl
  · rw [blockUpdated_noEvict sq he, blockUpdated_noEvict sq (s := s.withLimits lo hi) he]
    rfl

/-- Of the configuration a command reads the sample rate, the capacity and the filter's parameters alone. -/
theorem exec_withLimits (lo : Nat) (hi : Option Nat) {i : Instr} {s t : State} (h : exec i s = .next t) :
    exec i (s.withLimits lo hi) = .next (t.withLimits lo hi) := by
  rcases exec_cases h with ⟨x, rfl, rfl⟩ | ⟨x, rfl, rfl⟩ | ⟨v, rfl, ht, rfl⟩ | ⟨rfl, hh, rfl⟩ | ⟨v, rfl, ht, he, hh, rfl⟩ |
    ⟨v, rfl, ht, he, rfl⟩ | ⟨n, rfl, ⟨hn, rfl⟩ | ⟨h1, hC, rfl⟩⟩ | ⟨x, f, rfl, hw, rfl⟩ | ⟨x, f, rfl, hw, ht, rfl⟩ |
    ⟨x, rfl, hx⟩ | ⟨rfl, rfl⟩ | ⟨rfl, rfl⟩ | ⟨rfl, rfl⟩
  · rfl
  · rfl
  · exact execRbPush_eq (s := s.withLimits lo hi) v ht
  · exact execRbPop_eq (s := s.withLimits lo hi) hh
  · exact execRbPushPop_evict (s := s.withLimits lo hi) v ht he hh
  · exact execRbPushPop_noEvict (s := s.withLimits lo hi) v ht he
  · exact execRbSetSize_fails (s := s.withLimits lo hi) hn
  · exact execRbSetSize_ok (s := s.withLimits lo hi) h1 hC
  · exact execRmsBlock_fails (s := s.withLimits lo hi) x hw
  · have step := execRmsBlock_ok (s := s.withLimits lo hi) x hw ht
    rwa [blockUpdated_withLimits] at step
  · cases hx
    rfl
  · rfl
  · rfl
  · rfl

/-- Settles O41: decoding reads no configuration, and no command reads the limits. -/
theorem frequencyLimitsAreNotRead : Obligations.FrequencyLimitsAreNotRead := by
  intro w lo hi s t h
  cases hd : decode w with
  | ok i =>
    rw [perform_of_decode hd] at h ⊢
    exact exec_withLimits lo hi h
  | error r =>
    obtain rfl : raiseError .illegal s = t := by simpa [perform_of_illegal hd] using h
    exact perform_of_illegal hd _

/-! ## The running sum (R156)

The buffer is a queue as in group 41_ring_buffer.md, in the window that the next `RMS_BLOCK` sets. -/

/-- Step 3 of R152 is a push-pop in the new window, with the running sum beside it. -/
theorem blockUpdated_ring_of_pushPop {size : Nat} {sq : Cell} {s t : State} {e : Word64} (ht : s.ring.tail ≤ s.cfg.capacity)
    (hC : size ≤ s.cfg.capacity) (h : exec (.rbPushPop sq) (s.setN size) = .next t) (hr : answered t .ok e) :
    (blockUpdated size sq s).ring = { t.ring with val := s.ring.val + sq.setWidth 64 - e } := by
  by_cases he : adv size s.ring.tail = s.ring.head
  · have hh : s.ring.head ≤ s.cfg.capacity := he ▸ (adv_le _ _).trans hC
    cases (execRbPushPop_evict sq (s := s.setN size) ht he hh).symm.trans h
    cases hr
    rw [blockUpdated_evict sq he]
    rfl
  · cases (execRbPushPop_noEvict sq (s := s.setN size) ht he).symm.trans h
    cases hr
    rw [blockUpdated_noEvict sq he, BitVec.sub_zero]
    rfl

/-- What the ring holds does not depend on the running sum. -/
theorem RingBlk.Holds.withVal {r : RingBlk} {q : List Cell} (h : r.Holds q) (v : Word64) : { r with val := v }.Holds q :=
  ⟨h.store_wf, h.head_le, h.tail_le, h.tail_at, h.cells⟩

/-- The exact sum of cells. -/
def sumCells (q : List Cell) : Nat := (q.map BitVec.toNat).sum

theorem sumCells_cons (e : Cell) (q : List Cell) : sumCells (e :: q) = e.toNat + sumCells q := by
  simp [sumCells]

theorem sumCells_concat (q : List Cell) (v : Cell) : sumCells (q ++ [v]) = sumCells q + v.toNat := by
  simp [sumCells]

theorem sumCells_padded (n : Nat) (q : List Cell) : sumCells (padded n q) = sumCells q := by
  simp [sumCells, padded]

theorem map_toNat_squareCell (xs : List Sample) :
    (xs.map squareCell).map BitVec.toNat = xs.map fun x => (x.toInt * x.toInt).toNat := by
  simp [squareCell_toNat]

theorem sumCells_map_squareCell (xs : List Sample) : sumCells (xs.map squareCell) = sumSquares xs := by
  rw [sumCells, map_toNat_squareCell, sumSquares]

theorem lastOf_map {α β : Type} (f : α → β) (n : Nat) (xs : List α) : lastOf n (xs.map f) = (lastOf n xs).map f := by
  simp [lastOf]

/-- The sum of a full window of a legal block fits `val` (10_state.md R30). -/
theorem sumSquares_lt {xs : List Sample} (h : xs.length ≤ 2 ^ 24) : sumSquares xs < 2 ^ 64 := by
  have bound : sumSquares xs ≤ (xs.map fun x => (x.toInt * x.toInt).toNat).length • 2 ^ 30 :=
    List.sum_le_card_nsmul _ _ fun y hy => by
      obtain ⟨x, -, rfl⟩ := List.mem_map.1 hy
      have := sample_square_bound x
      omega
  rw [List.length_map, smul_eq_mul] at bound
  omega

/-- The block after it was given the samples `xs` in a window of `size`, from a cleared state. Before the first of them `N` is not
`size` yet. -/
structure RunningSum (size : Nat) (xs : List Sample) (s : State) : Prop where
  legal : configLegal s.cfg = true
  fits : size ≤ s.cfg.capacity
  window : (s.setN size).ring.Holds ((lastOf size xs).map squareCell)
  buffered_eq : buffered s.ring = (lastOf size xs).map squareCell
  val_eq : s.ring.val.toNat = sumSquares (lastOf size xs)

theorem RunningSum.empty {size : Nat} {s : State} (hs : s.Inv) (hh : s.ring.head = 0) (ht : s.ring.tail = 0)
    (hv : s.ring.val = 0#64) (hC : size ≤ s.cfg.capacity) : RunningSum size [] s := by
  have emptied : s.ring.head = s.ring.tail := hh.trans ht.symm
  have empty_ring : s.ring.Holds [] := .empty hs.store_wf emptied (ht ▸ Nat.zero_le _)
  have empty_window : (s.setN size).ring.Holds [] := .empty hs.store_wf emptied (ht ▸ Nat.zero_le size)
  have nothing : lastOf size ([] : List Sample) = [] := lastOf_of_length_le (Nat.zero_le size)
  constructor
  case legal => exact hs.legal
  case fits => exact hC
  case window => rwa [nothing]
  case buffered_eq =>
    rw [nothing]
    exact empty_ring.buffered_eq (Nat.zero_le _)
  case val_eq =>
    rw [nothing, hv]
    rfl

theorem RunningSum.congr {size : Nat} {xs : List Sample} {s t : State} (h : RunningSum size xs s) (hc : t.cfg = s.cfg)
    (hr : t.ring = s.ring) : RunningSum size xs t := by
  obtain ⟨legal, fits, window, buffered_eq, val_eq⟩ := h
  refine ⟨hc ▸ legal, hc ▸ fits, ?_, hr ▸ buffered_eq, hr ▸ val_eq⟩
  rwa [State.setN, hr]

/-- While `N` is `size`, the buffered cells are what the ring holds. -/
theorem RunningSum.of_holds {size : Nat} {xs : List Sample} {s : State} (legal : configLegal s.cfg = true)
    (fits : size ≤ s.cfg.capacity) (hN : s.ring.N = size) (hold : s.ring.Holds ((lastOf size xs).map squareCell))
    (hv : s.ring.val.toNat = sumSquares (lastOf size xs)) : RunningSum size xs s := by
  subst hN
  exact ⟨legal, fits, hold, hold.buffered_eq (by simpa using length_lastOf_le _ xs), hv⟩

/-- What is added to the running sum and what is subtracted leave the sum of the shifted window. -/
theorem toNat_val_of_shift {n : Nat} {q q' : List Cell} {v e : Cell} {val : Word64}
    (shift : padded n q ++ [v] = e :: padded n q') (hq : val.toNat = sumCells q) (hq' : sumCells q' < 2 ^ 64) :
    (val + v.setWidth 64 - e.setWidth 64).toNat = sumCells q' := by
  have balance : sumCells q + v.toNat = e.toNat + sumCells q' := by
    simpa only [sumCells_concat, sumCells_padded, sumCells_cons] using congrArg sumCells shift
  rw [BitVec.toNat_sub, BitVec.toNat_add, BitVec.toNat_setWidth_of_le (by decide), BitVec.toNat_setWidth_of_le (by decide)]
  omega

/-- One more sample shifts the window of squares. -/
theorem lastOf_squares_concat (n : Nat) (xs : List Sample) (x : Sample) :
    lastOf n ((lastOf n xs).map squareCell ++ [squareCell x]) = (lastOf n (xs ++ [x])).map squareCell := by
  rw [← List.map_singleton, ← List.map_append, lastOf_map, lastOf_lastOf_append]

/-- An `RMS_BLOCK` of the window length shifts the window by its square, and the running sum with it. -/
theorem RunningSum.rmsBlock {size : Nat} {xs : List Sample} {s : State} (h : RunningSum size xs s) (h1 : 1 ≤ size) (x : Sample)
    {freq : BitVec 32} (hf : s.cfg.sampleRate * 10 / freq.toNat = size) :
    ∃ t, exec (.rmsBlock x freq) s = .next t ∧ answered t .ok (blockResult size t) ∧ RunningSum size (xs ++ [x]) t := by
  obtain ⟨legal, fits, window, -, val_eq⟩ := h
  obtain ⟨-, ⟨-, hC⟩, -⟩ := (configLegal_iff s.cfg).1 legal
  have hw : ¬ windowFails s.cfg freq := not_windowFails_iff.2 (hf ▸ ⟨h1, fits⟩)
  have ht := window.tail_le.trans fits
  obtain ⟨e, u, step, shift, hold, -⟩ :=
    window.execPushPop (by simpa using length_lastOf_le size xs) fits (squareCell x)
  have ring := blockUpdated_ring_of_pushPop (s := s) ht fits step rfl
  rw [State.setN_ring_N, lastOf_squares_concat] at shift hold
  have run := execRmsBlock_ok x hw ht
  rw [show windowSize s.cfg freq = size from hf] at run
  refine ⟨_, run, rfl, .of_holds (by simpa using legal) (by simpa using fits) (blockUpdated_N ..) ?_ ?_⟩
  · rw [respond_ring, ring]
    exact hold.withVal _
  · rw [respond_ring, ring, ← sumCells_map_squareCell]
    refine toNat_val_of_shift shift (val_eq.trans (sumCells_map_squareCell _).symm) ?_
    rw [sumCells_map_squareCell]
    exact sumSquares_lt ((length_lastOf_le _ _).trans (fits.trans hC))

/-- A command outside the RB+BLK group answers `OK` and leaves the group. -/
theorem exec_leavesRing_ok {i : Instr} (hi : leavesRing i = true) (s : State) :
    ∃ t res, exec i s = .next t ∧ answered t .ok res ∧ t.ring = s.ring := by
  cases i with
  | isqrtWide | isqrtNarrow | rmsEx | clrEx => exact ⟨_, _, rfl, rfl, rfl⟩
  | rbPush | rbPop | rbPushPop | rbSetSize | rmsBlock | clrBlock | clrAll => cases hi

theorem blockSamples_of_leavesRing {i : Instr} (hi : leavesRing i = true) : blockSamples [i] = [] := by
  cases i with
  | rmsBlock => cases hi
  | _ => rfl

theorem blockSamples_cons (i : Instr) (is : List Instr) : blockSamples (i :: is) = blockSamples [i] ++ blockSamples is := by
  cases i <;> rfl

/-- Each command of a stream of one window length answers `OK` and keeps the running sum. -/
theorem RunningSum.exec_ok {size : Nat} {xs : List Sample} {i : Instr} {is : List Instr} {s : State} (h : RunningSum size xs s)
    (h1 : 1 ≤ size) (his : oneWindow s.cfg size (i :: is)) :
    ∃ t res, exec i s = .next t ∧ answered t .ok res ∧ RunningSum size (xs ++ blockSamples [i]) t := by
  obtain hi | ⟨x, freq, rfl, -, hf⟩ := his i List.mem_cons_self
  · obtain ⟨t, res, step, hres, hring⟩ := exec_leavesRing_ok hi s
    rw [blockSamples_of_leavesRing hi, List.append_nil]
    exact ⟨t, res, step, hres, h.congr (exec_cfg step) hring⟩
  · obtain ⟨t, step, hres, ht⟩ := h.rmsBlock h1 x hf
    exact ⟨t, _, step, hres, ht⟩

/-- The running-sum invariant over a whole stream. -/
theorem RunningSum.commands_ok {size : Nat} {xs : List Sample} {is : List Instr} {s : State} (h : RunningSum size xs s)
    (h1 : 1 ≤ size) (his : oneWindow s.cfg size is) :
    ∃ t rs, commands is s = some (t, rs) ∧ rs.length = is.length ∧ (∀ r ∈ rs, r.status = .ok) ∧
      t.cfg = s.cfg ∧ RunningSum size (xs ++ blockSamples is) t := by
  induction is generalizing s xs with
  | nil => exact ⟨s, [], rfl, rfl, by simp, rfl, by simpa [blockSamples] using h⟩
  | cons i is ih =>
    obtain ⟨t, res, step, hres, ht⟩ := h.exec_ok h1 his
    have hcfg := exec_cfg step
    obtain ⟨u, rs, hrun, hlen, hok, hcfg', hu⟩ := ih ht (hcfg ▸ (List.forall_mem_cons.1 his).2)
    rw [List.append_assoc, ← blockSamples_cons] at hu
    exact ⟨u, _, commands_cons step hres hrun, by simp [hlen], by simpa using hok, hcfg'.trans hcfg, hu⟩

/-- Settles O42: a block with an empty buffer and a zero sum is at the start of such a stream. -/
theorem runningSumEqualsTheWindow : Obligations.RunningSumEqualsTheWindow := by
  intro size is s hs hh ht hv h1 hC his
  obtain ⟨t, rs, hrun, hlen, hok, -, hsum⟩ := (RunningSum.empty hs hh ht hv hC).commands_ok h1 his
  rw [List.nil_append] at hsum
  refine ⟨t, rs, hrun, hlen, hok, ?_, hsum.val_eq⟩
  rw [hsum.buffered_eq, map_toNat_squareCell, lastOf_map]

/-! ## The result law (R158) -/

/-- A root of the truncated mean, by the sum. -/
theorem isFloorSqrt_div_iff {r sum size : Nat} (h1 : 1 ≤ size) :
    isFloorSqrt r (sum / size) ↔ r * r * size ≤ sum ∧ sum < (r + 1) * (r + 1) * size := by
  rw [isFloorSqrt, Nat.le_div_iff_mul_le h1, Nat.div_lt_iff_lt_mul h1]

/-- Settles O43: the last command divides the sum of the window it has shifted. -/
theorem blockResultIsTheWindowRms : Obligations.BlockResultIsTheWindowRms := by
  intro size is x freq s hs hh ht hv h1 hC his
  obtain ⟨his, hlast⟩ := List.forall_mem_append.1 his
  obtain ⟨t, rs, hrun, -, -, hcfg, hsum⟩ := (RunningSum.empty hs hh ht hv hC).commands_ok h1 his
  obtain ⟨⟨⟩⟩ | ⟨_, _, ⟨⟩, -, hf⟩ := hlast _ (List.mem_singleton_self _)
  obtain ⟨u, step, hres, hsum'⟩ := hsum.rmsBlock h1 x (hcfg ▸ hf)
  have root := (blockResult_isFloorSqrt size u).1
  rw [hsum'.val_eq, isFloorSqrt_div_iff h1, List.nil_append] at root
  exact ⟨t, rs, u, _, hrun, step, hres, root⟩

end Sys2Proof.Machine
end

section
/-! Group 43_iir_rms.md: what `RMS_EX` does for every configuration, and what the default coefficients give: the range of the delay line
and how it rises under a constant sample. -/

namespace Sys2Proof.Machine

/-! ## What `RMS_EX` does (R174, R180, R181) -/

/-- The delay line after both stages have run on the input `z`; its `dy` cells are the stages' outputs. -/
def IirLine.filter (cfg : Config) (z : Word64) (l : IirLine) : IirLine :=
  let o1 := stage cfg z l.dx1 l.dy1
  let o2 := stage cfg o1.y l.dx2 l.dy2
  { dx1 := o1.dx, dy1 := o1.dy, dx2 := o2.dx, dy2 := o2.dy }

@[simp] theorem IirLine.filter_dx1 (cfg : Config) (z : Word64) (l : IirLine) :
    (l.filter cfg z).dx1 = (stage cfg z l.dx1 l.dy1).dx := rfl
@[simp] theorem IirLine.filter_dy1 (cfg : Config) (z : Word64) (l : IirLine) :
    (l.filter cfg z).dy1 = (stage cfg z l.dx1 l.dy1).y := rfl
@[simp] theorem IirLine.filter_dx2 (cfg : Config) (z : Word64) (l : IirLine) :
    (l.filter cfg z).dx2 = (stage cfg (stage cfg z l.dx1 l.dy1).y l.dx2 l.dy2).dx := rfl
@[simp] theorem IirLine.filter_dy2 (cfg : Config) (z : Word64) (l : IirLine) :
    (l.filter cfg z).dy2 = (stage cfg (stage cfg z l.dx1 l.dy1).y l.dx2 l.dy2).y := rfl

/-- The answer of `RMS_EX` from the stage-2 output it leaves in `dy2` (R181). -/
def IirLine.root (l : IirLine) : Word64 := (isqrtNarrow (sat32u l.dy2.toInt)).setWidth 64

/-- The state in which `RMS_EX` responds. -/
def filtered (x : Sample) (s : State) : State := { s with iir := s.iir.filter s.cfg (squareWide x) }

@[simp] theorem filtered_iir (x : Sample) (s : State) : (filtered x s).iir = s.iir.filter s.cfg (squareWide x) := rfl

theorem exec_rmsEx (x : Sample) (s : State) :
    exec (.rmsEx x) s = .next (respond .ok (filtered x s).iir.root (filtered x s)) := rfl

theorem IirLine.toNat_root (l : IirLine) : l.root.toNat = (max 0 (min l.dy2.toInt (2 ^ 32 - 1))).toNat.sqrt := by
  rw [root, BitVec.toNat_setWidth_of_le (by decide), toNat_isqrtNarrow, sat32u_toNat]

theorem IirLine.root_isFloorSqrt (l : IirLine) :
    isFloorSqrt l.root.toNat (max 0 (min l.dy2.toInt (2 ^ 32 - 1))).toNat ∧ l.root.toNat < 2 ^ 16 := by
  rw [toNat_root]
  exact ⟨⟨Nat.sqrt_le _, Nat.lt_succ_sqrt _⟩, Nat.sqrt_lt.2 (by omega)⟩

/-- A product with the filter input, as `scaled` forms it, is one with the exact square. -/
theorem scaled_squareWide (cfg : Config) (coef : Int) (x : Sample) :
    scaled cfg coef (squareWide x) = (BitVec.ofInt 64 (coef * (x.toInt * x.toInt))).toInt / 2 ^ cfg.shift := by
  rw [scaled, squareWide_toInt, asr, s64]

/-- Settles O44: the two stages are `IirLine.filter`, and nothing else is written. -/
theorem rmsExRunsTwoStages : Obligations.RmsExRunsTwoStages := by
  intro x s
  refine ⟨_, _, exec_rmsEx x s, rfl, ?_, rfl, rfl, ⟨rfl, rfl, rfl⟩, respond_ok_obs _ _⟩
  intro shifted z y1 y2
  have output1 : (filtered x s).iir.dy1.toInt = y1 := by
    simp only [filtered_iir, IirLine.filter_dy1, stage, scaled_squareWide]
    rfl
  have output2 : (filtered x s).iir.dy2.toInt = y2 := by
    simp only [y2, ← output1]
    rfl
  refine ⟨?_, output1, ?_, output2, output2 ▸ (filtered x s).iir.root_isFloorSqrt⟩
  · simp only [respond_iir, filtered_iir, IirLine.filter_dx1, stage, scaled_squareWide]
    rfl
  · simp only [← output1]
    rfl

/-! ## The recursion (R176) -/

/-- A sum reduced to 64 bits does not depend on whether a term was reduced before. -/
theorem s64_add_toInt_s64 (a b : Int) : s64 (a + (s64 b).toInt) = s64 (a + b) := by
  simp only [s64, BitVec.ofInt_add, BitVec.ofInt_toInt]

/-- The output of a stage at the next call: its `dx` cell holds the last input's term and the feedback of the cell `dy` before that. -/
theorem stage_y_stage_dx (cfg : Config) (z z' dx dy dy' : Word64) :
    (stage cfg z' (stage cfg z dx dy).dx dy').y =
      s64 (scaled cfg cfg.coefB0 z' + scaled cfg cfg.coefB1 z - scaled cfg cfg.coefA dy) := by
  simp only [stage, s64_add_toInt_s64, add_sub_assoc]

/-- Settles O45: each stage is run twice on its own cells. -/
theorem filterFeedsBackTwoCalls : Obligations.FilterFeedsBackTwoCalls := by
  intro x x' s
  have recursion1 := stage_y_stage_dx s.cfg (squareWide x) (squareWide x') s.iir.dx1 s.iir.dy1 (filtered x s).iir.dy1
  rw [scaled_squareWide, scaled_squareWide] at recursion1
  exact ⟨_, _, exec_rmsEx x s, exec_rmsEx x' _, recursion1,
    stage_y_stage_dx s.cfg _ _ s.iir.dx2 _ (filtered x s).iir.dy2⟩

/-! ## The sign of a sample (R180, 42_block_rms.md R154) -/

/-- `-32768` is its own negation, and every other sample is negated exactly. -/
theorem sample_square_neg (x : Sample) : (-x).toInt * (-x).toInt = x.toInt * x.toInt := by
  rw [BitVec.toInt_neg_eq_ite]
  split
  · rfl
  · exact neg_mul_neg _ _

/-- Settles O46: both commands read the square of the sample alone. -/
theorem sampleSignDoesNotMatter : Obligations.SampleSignDoesNotMatter := by
  intro x freq s
  have cell : squareCell (-x) = squareCell x := by rw [squareCell, sample_square_neg, squareCell]
  have wide : squareWide (-x) = squareWide x := by rw [squareWide, sample_square_neg, squareWide]
  constructor
  · simp only [exec, execRmsEx, wide]
  · simp only [exec, execRmsBlock, cell]

/-! ## The default coefficients (R171, R172) -/

/-- Without a wrap the scaled product is the floor of the exact quotient. -/
theorem scaled_of_fits {cfg : Config} {coef : Int} {v : Word64} (h1 : -2 ^ 63 ≤ coef * v.toInt) (h2 : coef * v.toInt < 2 ^ 63) :
    scaled cfg coef v = coef * v.toInt / 2 ^ cfg.shift := by
  rw [scaled, s64_toInt h1 h2, asr]

/-- The cells of a stage whose inputs lie in `[0, m]`: what `dx` holds leaves room in `[0, m]` for one more feed-forward term. With
`m = 2^30` this is the range of R184. -/
structure CellsWithin (m : Int) (dx dy : Word64) : Prop where
  dx_nonneg : 0 ≤ dx.toInt
  dx_le : dx.toInt ≤ m - 213 * m / 32768
  dy_nonneg : 0 ≤ dy.toInt
  dy_le : dy.toInt ≤ m

theorem CellsWithin.zero {m : Int} (hm : 0 ≤ m) : CellsWithin m 0#64 0#64 := by
  constructor <;> simp only [BitVec.toInt_zero] <;> omega

/-- Both stages' cells. -/
structure IirLine.Within (m : Int) (l : IirLine) : Prop where
  stage1 : CellsWithin m l.dx1 l.dy1
  stage2 : CellsWithin m l.dx2 l.dy2

theorem IirLine.Within.reset {m : Int} (hm : 0 ≤ m) : IirLine.reset.Within m := ⟨.zero hm, .zero hm⟩

/-- The range of R184 is that of inputs up to `2^30`. -/
theorem iirInRange_iff (l : IirLine) : iirInRange l ↔ l.Within (2 ^ 30) := by
  constructor
  · rintro ⟨⟨h1, h2⟩, ⟨h3, h4⟩, ⟨h5, h6⟩, h7, h8⟩
    exact ⟨⟨h1, by omega, h3, h4⟩, ⟨h5, by omega, h7, h8⟩⟩
  · rintro ⟨⟨h1, h2, h3, h4⟩, h5, h6, h7, h8⟩
    exact ⟨⟨h1, by omega⟩, ⟨h3, h4⟩, ⟨h5, by omega⟩, h7, h8⟩

section DefaultFilter

variable {cfg : Config} (hc : defaultFilter cfg) {m : Int} (hm : m ≤ 2 ^ 30) {z z' dx dx' dy dy' : Word64}
include hc hm

/-- One stage with the default coefficients, without a wrap. -/
theorem stage_default (hz0 : 0 ≤ z.toInt) (hzm : z.toInt ≤ m) (h : CellsWithin m dx dy) :
    (stage cfg z dx dy).y.toInt = 213 * z.toInt / 32768 + dx.toInt ∧
    (stage cfg z dx dy).dx.toInt = 213 * z.toInt / 32768 - -32342 * dy.toInt / 32768 := by
  obtain ⟨hshift, ha, hb0, hb1⟩ := hc
  obtain ⟨dx_nonneg, dx_le, dy_nonneg, dy_le⟩ := h
  have forward : scaled cfg 213 z = 213 * z.toInt / 32768 := by
    rw [scaled_of_fits (by omega) (by omega), hshift]
    norm_num
  have feedback : scaled cfg (-32342) dy = -32342 * dy.toInt / 32768 := by
    rw [scaled_of_fits (by omega) (by omega), hshift]
    norm_num
  simp only [stage, ha, hb0, hb1, forward, feedback]
  exact ⟨s64_toInt (by omega) (by omega), s64_toInt (by omega) (by omega)⟩

/-- A stage keeps its range, since `213 + 213 + 32342 = 2^15`, the DC gain of R177. -/
theorem stage_within (hz0 : 0 ≤ z.toInt) (hzm : z.toInt ≤ m) (h : CellsWithin m dx dy) :
    CellsWithin m (stage cfg z dx dy).dx (stage cfg z dx dy).y := by
  obtain ⟨y_eq, dx_eq⟩ := stage_default hc hm hz0 hzm h
  obtain ⟨dx_nonneg, dx_le, dy_nonneg, dy_le⟩ := h
  constructor <;> omega

/-- A stage is monotone in its input and both cells. -/
theorem stage_mono (hz0 : 0 ≤ z.toInt) (hz : z.toInt ≤ z'.toInt) (hzm : z'.toInt ≤ m) (h : CellsWithin m dx dy)
    (h' : CellsWithin m dx' dy') (hdx : dx.toInt ≤ dx'.toInt) (hdy : dy.toInt ≤ dy'.toInt) :
    (stage cfg z dx dy).y.toInt ≤ (stage cfg z' dx' dy').y.toInt ∧
    (stage cfg z dx dy).dx.toInt ≤ (stage cfg z' dx' dy').dx.toInt := by
  obtain ⟨y_eq, dx_eq⟩ := stage_default hc hm hz0 (hz.trans hzm) h
  obtain ⟨y_eq', dx_eq'⟩ := stage_default hc hm (hz0.trans hz) hzm h'
  omega

/-- Both stages keep the range: the input of stage 2 is a `dy` cell of stage 1. -/
theorem IirLine.Within.filter {l : IirLine} (hz0 : 0 ≤ z.toInt) (hzm : z.toInt ≤ m) (h : l.Within m) :
    (l.filter cfg z).Within m := by
  have first := stage_within hc hm hz0 hzm h.stage1
  exact ⟨first, stage_within hc hm first.dy_nonneg first.dy_le h.stage2⟩

end DefaultFilter

/-! ## The range of the cells (R184) -/

/-- The writers of the delay line, with what each leaves in it. -/
theorem exec_iir_cases {i : Instr} {s t : State} (h : exec i s = .next t) :
    t.iir = s.iir ∨ t.iir = IirLine.reset ∨ ∃ x, t.iir = s.iir.filter s.cfg (squareWide x) := by
  by_cases kept : t.iir = s.iir
  · exact .inl kept
  · obtain ⟨-, -, writers⟩ := eachElementHasItsWriters i s t h
    obtain ⟨x, rfl⟩ | rfl | rfl := writers kept <;> cases h
    · exact .inr (.inr ⟨x, rfl⟩)
    · exact .inr (.inl rfl)
    · exact .inr (.inl rfl)

theorem perform_keeps_iirInRange {w : CommandWord} {s t : State} (h : perform w s = .next t) (hc : defaultFilter s.cfg)
    (hs : iirInRange s.iir) : iirInRange t.iir := by
  cases hd : decode w with
  | error r =>
    obtain rfl : raiseError .illegal s = t := by simpa [perform_of_illegal hd] using h
    exact hs
  | ok i =>
    rw [perform_of_decode hd] at h
    obtain kept | cleared | ⟨x, ran⟩ := exec_iir_cases h
    · rwa [kept]
    · exact cleared ▸ (iirInRange_iff _).2 (.reset (by norm_num))
    · obtain ⟨hz0, hzm⟩ := sample_square_bound x
      rw [← squareWide_toInt] at hz0 hzm
      rw [iirInRange_iff] at hs ⊢
      exact ran ▸ hs.filter hc le_rfl hz0 hzm

/-- Settles O47: an edge resets the delay line, leaves it, or performs a command word. -/
theorem filterCellsStayInRange : Obligations.FilterCellsStayInRange := by
  intro s t hc hs h
  obtain ⟨-, ⟨-, rfl⟩ | ⟨e, rest, -, hedge⟩⟩ := step_cases h
  · exact hs
  · rcases hedge with ⟨-, rfl⟩ | ⟨-, -, -, rfl⟩ | ⟨-, -, w, -, hp⟩ | ⟨-, rfl⟩
    · exact (iirInRange_iff _).2 (.reset (by norm_num))
    · exact hs
    · exact perform_keeps_iirInRange hp hc hs
    · exact hs

/-! ## A constant sample (R183) -/

/-- Each cell of `l` is at most that of `l'`. -/
structure IirLine.Below (l l' : IirLine) : Prop where
  dx1 : l.dx1.toInt ≤ l'.dx1.toInt
  dy1 : l.dy1.toInt ≤ l'.dy1.toInt
  dx2 : l.dx2.toInt ≤ l'.dx2.toInt
  dy2 : l.dy2.toInt ≤ l'.dy2.toInt

theorem IirLine.Within.reset_below {m : Int} {l : IirLine} (h : l.Within m) : IirLine.reset.Below l :=
  ⟨h.stage1.dx_nonneg, h.stage1.dy_nonneg, h.stage2.dx_nonneg, h.stage2.dy_nonneg⟩

/-- The filter is monotone in the delay line: the greater output of stage 1 is the greater input of stage 2. -/
theorem IirLine.Below.filter {cfg : Config} (hc : defaultFilter cfg) {m : Int} (hm : m ≤ 2 ^ 30) {z : Word64} {l l' : IirLine}
    (hz0 : 0 ≤ z.toInt) (hzm : z.toInt ≤ m) (h : l.Within m) (h' : l'.Within m) (hle : l.Below l') :
    (l.filter cfg z).Below (l'.filter cfg z) := by
  obtain ⟨y1_le, dx1_le⟩ := stage_mono hc hm hz0 le_rfl hzm h.stage1 h'.stage1 hle.dx1 hle.dy1
  have first := stage_within hc hm hz0 hzm h.stage1
  have first' := stage_within hc hm hz0 hzm h'.stage1
  obtain ⟨y2_le, dx2_le⟩ := stage_mono hc hm first.dy_nonneg y1_le first'.dy_le h.stage2 h'.stage2 hle.dx2 hle.dy2
  exact ⟨dx1_le, y1_le, dx2_le, y2_le⟩

theorem IirLine.Below.root_le {l l' : IirLine} (h : l.Below l') : l.root.toNat ≤ l'.root.toNat := by
  rw [toNat_root, toNat_root]
  have := h.dy2
  exact Nat.sqrt_le_sqrt (by omega)

/-- An output of at most the square has a root of at most the magnitude. -/
theorem IirLine.Within.root_le {x : Sample} {l : IirLine} (h : l.Within (x.toInt * x.toInt)) :
    l.root.toNat ≤ x.toInt.natAbs := by
  have square : ((x.toInt.natAbs * x.toInt.natAbs : Nat) : Int) = x.toInt * x.toInt := Int.natAbs_mul_self
  have output_le := h.stage2.dy_le
  calc l.root.toNat = (max 0 (min l.dy2.toInt (2 ^ 32 - 1))).toNat.sqrt := l.toNat_root
    _ ≤ (x.toInt.natAbs * x.toInt.natAbs).sqrt := Nat.sqrt_le_sqrt (by omega)
    _ = x.toInt.natAbs := Nat.sqrt_eq _

/-- A block that is given the sample `x` again and again: its cells are in the range of the square, and the next call lowers none. -/
structure Rising (x : Sample) (s : State) : Prop where
  coefs : defaultFilter s.cfg
  within : s.iir.Within (x.toInt * x.toInt)
  rises : s.iir.Below (s.iir.filter s.cfg (squareWide x))

theorem filter_square_within {cfg : Config} (hc : defaultFilter cfg) (x : Sample) {l : IirLine}
    (h : l.Within (x.toInt * x.toInt)) : (l.filter cfg (squareWide x)).Within (x.toInt * x.toInt) :=
  have bound := sample_square_bound x
  h.filter hc bound.2 (squareWide_toInt x ▸ bound.1) (squareWide_toInt x).le

theorem Rising.of_reset {x : Sample} {s : State} (hc : defaultFilter s.cfg) (hs : s.iir = IirLine.reset) : Rising x s where
  coefs := hc
  within := hs ▸ .reset (sample_square_bound x).1
  rises := hs ▸ (filter_square_within hc x (.reset (sample_square_bound x).1)).reset_below

/-- The next call finds the block rising still: filtering both sides of `rises` keeps it. -/
theorem Rising.respond_filtered {x : Sample} {s : State} (h : Rising x s) (r : Word64) :
    Rising x (respond .ok r (filtered x s)) := by
  obtain ⟨hc, hw, hr⟩ := h
  have bound := sample_square_bound x
  have hw' := filter_square_within hc x hw
  exact ⟨hc, hw', hr.filter hc bound.2 (squareWide_toInt x ▸ bound.1) (squareWide_toInt x).le hw hw'⟩

/-- The answers start at or above the root before the first call, do not decrease, and stay at or below the magnitude. -/
theorem Rising.commands_ok {x : Sample} {s : State} (h : Rising x s) (n : Nat) :
    ∃ t rs, commands (List.replicate n (.rmsEx x)) s = some (t, rs) ∧ rs.length = n ∧
      rs.Pairwise (fun r q => r.res.toNat ≤ q.res.toNat) ∧
      ∀ r ∈ rs, r.status = .ok ∧ s.iir.root.toNat ≤ r.res.toNat ∧ r.res.toNat ≤ x.toInt.natAbs := by
  induction n generalizing s with
  | zero => exact ⟨s, [], rfl, rfl, .nil, by simp⟩
  | succ n ih =>
    have after := h.respond_filtered (filtered x s).iir.root
    obtain ⟨t, rs, hrun, hlen, hsorted, hrs⟩ := ih after
    have first_ge : s.iir.root.toNat ≤ (filtered x s).iir.root.toNat := h.rises.root_le
    refine ⟨t, _, commands_cons (exec_rmsEx x s) rfl hrun, by rw [List.length_cons, hlen],
      List.pairwise_cons.2 ⟨fun q hq => (hrs q hq).2.1, hsorted⟩, List.forall_mem_cons.2 ⟨?_, fun r hr => ?_⟩⟩
    · exact ⟨rfl, first_ge, after.within.root_le⟩
    · obtain ⟨ok, ge, le⟩ := hrs r hr
      exact ⟨ok, first_ge.trans ge, le⟩

/-- Settles O48: the zero state is at the start of such a rise. -/
theorem constantInputNeverFallsNorExceedsItsMagnitude : Obligations.ConstantInputNeverFallsNorExceedsItsMagnitude := by
  intro x n s hc hs
  obtain ⟨t, rs, hrun, hlen, hsorted, hrs⟩ := (Rising.of_reset (x := x) hc hs).commands_ok n
  refine ⟨t, rs, hrun, hlen, fun j k r q hjk hr hq => ?_, fun r hr => ⟨(hrs r hr).1, (hrs r hr).2.2⟩⟩
  obtain ⟨hj, rfl⟩ := List.getElem?_eq_some_iff.1 hr
  obtain ⟨hk, rfl⟩ := List.getElem?_eq_some_iff.1 hq
  rcases hjk.lt_or_eq with lt | rfl
  · exact List.pairwise_iff_getElem.1 hsorted j k hj hk lt
  · exact le_rfl

/-! ## Small samples (R180, R183) -/

/-- An input whose feed-forward term is 0 leaves a stage at zero. -/
theorem stage_zero {cfg : Config} (hc : defaultFilter cfg) {z : Word64} (hz0 : 0 ≤ z.toInt) (hz : 213 * z.toInt < 32768) :
    stage cfg z 0#64 0#64 = { y := 0#64, dx := 0#64, dy := 0#64 } := by
  obtain ⟨y_eq, dx_eq⟩ := stage_default hc (by omega) hz0 le_rfl (.zero hz0)
  rw [BitVec.toInt_zero] at y_eq dx_eq
  have y_zero : (stage cfg z 0#64 0#64).y = 0#64 := BitVec.eq_of_toInt_eq (by rw [BitVec.toInt_zero]; omega)
  have dx_zero : (stage cfg z 0#64 0#64).dx = 0#64 := BitVec.eq_of_toInt_eq (by rw [BitVec.toInt_zero]; omega)
  change StageOut.mk (stage cfg z 0#64 0#64).y (stage cfg z 0#64 0#64).dx (stage cfg z 0#64 0#64).y = _
  rw [y_zero, dx_zero]

theorem filter_reset_of_small {cfg : Config} (hc : defaultFilter cfg) {x : Sample} (hx : x.toInt.natAbs ≤ 12) :
    IirLine.reset.filter cfg (squareWide x) = IirLine.reset := by
  have small : x.toInt * x.toInt ≤ 144 := by
    rw [← Int.natAbs_mul_self]
    exact_mod_cast Nat.mul_le_mul hx hx
  have first := stage_zero hc (z := squareWide x) (squareWide_toInt x ▸ mul_self_nonneg _) (by rw [squareWide_toInt]; omega)
  have second := stage_zero hc (z := 0#64) (by decide) (by decide)
  simp only [IirLine.filter, IirLine.reset_dx1, IirLine.reset_dy1, IirLine.reset_dx2, IirLine.reset_dy2, first, second]
  rfl

/-- Settles O49: each command leaves the delay line at zero and answers its root. -/
theorem smallSamplesStayAtZero : Obligations.SmallSamplesStayAtZero := by
  intro xs
  induction xs with
  | nil => exact fun s _ hs _ => ⟨s, rfl, hs⟩
  | cons x xs ih =>
    intro s hc hs hxs
    obtain ⟨hx, hxs⟩ := List.forall_mem_cons.1 hxs
    have still : (filtered x s).iir = IirLine.reset := by rw [filtered_iir, hs, filter_reset_of_small hc hx]
    have root_zero : IirLine.reset.root = 0#64 := by decide
    have step := exec_rmsEx x s
    rw [still, root_zero] at step
    obtain ⟨t, hrun, ht⟩ := ih (respond .ok 0#64 (filtered x s)) hc still hxs
    exact ⟨t, commands_cons step rfl hrun, ht⟩

end Sys2Proof.Machine
end

section
/-! Group 44_control.md: what the three clear commands leave, and that the spec's loop of writes empties the storage. -/

namespace Sys2Proof.Machine

/-! ## The clear commands (R201 to R203) -/

theorem exec_clrBlock (s : State) : exec .clrBlock s = .next (respond .ok 0#64 s.clearRing) := rfl

theorem exec_clrEx (s : State) : exec .clrEx s = .next (respond .ok 0#64 s.clearIir) := rfl

theorem exec_clrAll (s : State) : exec .clrAll s = .next (respond .ok 0#64 s.clearRing.clearIir) := rfl

/-! ## The loop of writes (R201) -/

/-- The loop zeroes the cells `0 .. c` and leaves every other. -/
theorem Memory.read_zeroUpTo {m : Memory} (h : m.wf) (c i : Nat) :
    (m.zeroUpTo c).read i = if i ≤ c then 0#32 else m.read i := by
  induction c with
  | zero => simp [Memory.zeroUpTo, Memory.read_write m h]
  | succ c ih =>
    rw [Memory.zeroUpTo, Memory.read_write _ (Memory.wf_zeroUpTo m h c), ih]
    by_cases hi : i = c + 1
    · simp [hi]
    · simp [hi, show i ≤ c + 1 ↔ i ≤ c by omega]

/-- A storage whose listed cells the loop reaches is empty after it: every cell reads 0, and the canonical form of that is the empty
list. -/
theorem Memory.zeroUpTo_of_within {m : Memory} {c : Nat} (h : m.wf) (hc : m.within c) : m.zeroUpTo c = [] := by
  refine Memory.ext_of_read (Memory.wf_zeroUpTo m h c) (by simp [Memory.wf]) fun i => ?_
  rw [Memory.read_zeroUpTo h, Memory.read_nil, ite_eq_left_iff]
  exact fun hi => Memory.read_eq_zero_of_not_listed m i fun p hp => ((hc p hp).trans_lt (Nat.lt_of_not_le hi)).ne

/-- Settles O53: both storages are empty. -/
theorem clrBlockIsTheWriteLoop : Obligations.ClrBlockIsTheWriteLoop := fun s hs =>
  ⟨_, exec_clrBlock s, (Memory.zeroUpTo_of_within hs.store_wf hs.store_within).symm⟩

/-! ## The reset values -/

/-- Settles O50: the ring group is the one after reset, and a response leaves the rest. -/
theorem clrBlockResetsTheRingGroup : Obligations.ClrBlockResetsTheRingGroup := fun s =>
  ⟨_, exec_clrBlock s, by simp [answered, sameHostSide]⟩

/-- Settles O51: the delay line is the one after reset, and a response leaves the rest. -/
theorem clrExResetsTheDelayLine : Obligations.ClrExResetsTheDelayLine := fun s =>
  ⟨_, exec_clrEx s, by simp [answered, sameHostSide]⟩

/-- Settles O52: `CLR_ALL` and an edge with `rst` both give the two groups their reset values. -/
theorem clrAllEqualsReset : Obligations.ClrAllEqualsReset := by
  intro s
  have rst_same : ∀ (e : PortIn) (rest : List PortIn), configLegal s.cfg = true → s.port.inputs = e :: rest → e.rst = true →
      ∃ u, step s = .next u ∧ sameBlock u (respond .ok 0#64 s.clearRing.clearIir) :=
    fun e rest hl hi he => ⟨_, step_of_rst hl hi he, by simp [sameBlock]⟩
  refine ⟨_, exec_clrAll s, ?_⟩
  simpa [answered, sameHostSide, sameBlock] using rst_same

end Sys2Proof.Machine
end

section
/-! Group 60_exceptions.md: which words are answered with an error, what the observer records of them, and the idle block. -/

namespace Sys2Proof.Machine

/-! ## Which words are answered with an error (R221 to R224) -/

/-- The commands that fail the precondition of R223. -/
def sizeRefused (cfg : Config) (i : Instr) : Prop := ∃ x freq, i = .rmsBlock x freq ∧ windowFails cfg freq

/-- A command that fails the precondition meets the error response; any other is answered `OK`. -/
theorem exec_size_or_ok {i : Instr} {s t : State} (h : exec i s = .next t) :
    (sizeRefused s.cfg i ∧ t = raiseError .size s) ∨ (¬ sizeRefused s.cfg i ∧ rspStatus t = some .ok) := by
  obtain ⟨x, rfl, rfl⟩ | ⟨x, rfl, rfl⟩ | ⟨v, rfl, -, rfl⟩ | ⟨rfl, -, rfl⟩ | ⟨v, rfl, -, -, -, rfl⟩ |
    ⟨v, rfl, -, -, rfl⟩ | ⟨n, rfl, ⟨-, rfl⟩ | ⟨-, -, rfl⟩⟩ | ⟨x, f, rfl, fails, rfl⟩ | ⟨x, f, rfl, holds, -, rfl⟩ |
    ⟨x, rfl, hx⟩ | ⟨rfl, rfl⟩ | ⟨rfl, rfl⟩ | ⟨rfl, rfl⟩ := exec_cases h
  on_goal 9 => exact .inl ⟨⟨x, f, rfl, fails⟩, rfl⟩ -- an `RMS_BLOCK` that fails the precondition
  on_goal 9 => exact .inr ⟨by rintro ⟨_, _, ⟨⟩, fails⟩; exact holds fails, rfl⟩ -- and one that meets it
  on_goal 9 => cases hx
  all_goals exact .inr ⟨nofun, rfl⟩

/-- The status a word is answered with, and that one other than `OK` comes from the error response. -/
theorem perform_status {w : CommandWord} {s t : State} {r : Response} (h : perform w s = .next t)
    (hr : t.port.rsp = some r) :
    (r.status = .illegal ↔ ∃ e, decode w = .error e) ∧
    (r.status = .size ↔ ∃ i, decode w = .ok i ∧ sizeRefused s.cfg i) ∧
    (r.status ≠ .ok → t = raiseError r.status s) := by
  cases hd : decode w with
  | error e =>
    obtain rfl : raiseError .illegal s = t := by simpa [perform_of_illegal hd] using h
    obtain rfl : { status := .illegal, res := 0#64 } = r := by simpa using hr
    simp
  | ok i =>
    obtain ⟨refused, rfl⟩ | ⟨accepted, hok⟩ := exec_size_or_ok (perform_of_decode hd s ▸ h)
    · obtain rfl : { status := .size, res := 0#64 } = r := by simpa using hr
      simp [refused]
    · obtain hst : r.status = .ok := by simpa [rspStatus, hr] using hok
      simp [hst, accepted]

/-- The words that decode to an `RMS_BLOCK`. -/
theorem decode_eq_rmsBlock_iff {w : CommandWord} {x : Sample} {freq : BitVec 32} : decode w = .ok (.rmsBlock x freq) ↔
    fieldRsvd w = 0#24 ∧ fieldOpc w = 0x20#8 ∧ (fieldA w).extractLsb' 0 16 = x ∧ fieldB w = freq := by
  rw [decode_eq_ok, and_congr_right_iff]
  intro _
  constructor
  · intro h
    have ho : fieldOpc w = 0x20#8 := eq_opcode_of_decodeOpcode h
    simpa [ho, decodeOpcode] using h
  · rintro ⟨ho, rfl, rfl⟩
    rw [ho]
    rfl

/-- The words that are answered `SIZE`. -/
theorem decode_sizeRefused_iff {w : CommandWord} {cfg : Config} : (∃ i, decode w = .ok i ∧ sizeRefused cfg i) ↔
    fieldRsvd w = 0#24 ∧ fieldOpc w = 0x20#8 ∧ windowFails cfg (fieldB w) := by
  constructor
  · rintro ⟨_, hd, x, freq, rfl, fails⟩
    obtain ⟨hr, ho, -, rfl⟩ := decode_eq_rmsBlock_iff.1 hd
    exact ⟨hr, ho, fails⟩
  · rintro ⟨hr, ho, fails⟩
    exact ⟨_, decode_eq_rmsBlock_iff.2 ⟨hr, ho, rfl, rfl⟩, _, _, rfl, fails⟩

/-- Settles O21: the status of a word depends on what it decodes to, and the error response has `RES = 0` and writes no element. -/
theorem errorsAreExactlyThese : Obligations.ErrorsAreExactlyThese := by
  intro w s hs
  obtain ⟨t, r, h, hr⟩ := perform_responds hs w
  obtain ⟨illegal, size, error⟩ := perform_status h hr
  rw [decode_error_iff] at illegal
  rw [decode_sizeRefused_iff, windowFails_iff] at size
  refine ⟨t, r, h, hr, illegal, size, fun hst => ⟨perform_res_eq_zero h hr hst, ?_⟩⟩
  rw [error hst]
  exact ⟨rfl, rfl, rfl⟩

/-! ## The observer's record (R226) -/

/-- Before it responds, a command removes nothing from the record. -/
theorem Writes.record_grows {i : Instr} {s u : State} (hw : Writes s i u) : s.obs.record <+: u.obs.record := by
  obtain h | h | h | h | h := hw.obs_cases <;> simp [h]

theorem perform_record_grows {w : CommandWord} {s t : State} (h : perform w s = .next t) :
    s.obs.record <+: t.obs.record := by
  cases hd : decode w with
  | error e =>
    obtain rfl : raiseError .illegal s = t := by simpa [perform_of_illegal hd] using h
    simp
  | ok i =>
    obtain ⟨u, st, r, hw, rfl⟩ := exec_writes (perform_of_decode hd s ▸ h)
    exact hw.record_grows.trans (by simp)

/-- Settles O22: a step that performs no word leaves the record, and the error response appends its violation. -/
theorem theFaultRecordOnlyGrows : Obligations.TheFaultRecordOnlyGrows := by
  refine ⟨fun s t h => ?_, fun w s t r h hr => ?_⟩
  · obtain ⟨-, ⟨-, rfl⟩ | ⟨e, rest, -, hedge⟩⟩ := step_cases h
    · simp
    · obtain ⟨-, rfl⟩ | ⟨-, -, -, rfl⟩ | ⟨-, -, w, -, hp⟩ | ⟨-, rfl⟩ := hedge
      · simp
      · simp
      · exact (perform_record_grows hp :)
      · simp
  · obtain ⟨-, -, error⟩ := perform_status h hr
    have recorded (hst : r.status ≠ .ok) : t.obs.record = s.obs.record ++ r.status.violation := by
      rw [error hst, raiseError_obs_record]
    constructor <;> intro hst <;> rw [recorded (by simp [hst]), hst] <;> rfl

/-! ## The idle block (R235) -/

theorem step_of_no_inputs {s : State} (hl : configLegal s.cfg = true) (hi : s.port.inputs = []) : step s = .next s := by
  rw [step_of_legal hl]
  simp [nextEdge, hi]

/-- An edge without a command uses itself up and does nothing more while none is outstanding. -/
theorem step_idle {s : State} {e : PortIn} {rest : List PortIn} (hl : configLegal s.cfg = true)
    (hi : s.port.inputs = e :: rest) (he : e.rst = false) (hw : e.cmd = none) (hr : s.port.rsp = none) :
    step s = .next { s with port := { s.port with inputs := rest } } := by
  rw [step_of_legal hl]
  simp [nextEdge, hi, clockEdge, he, hw, rspValid, hr]

/-- Settles O12: an idle edge writes the list of coming edges alone. -/
theorem idleBlockHoldsItsState : Obligations.IdleBlockHoldsItsState :=
  ⟨fun _ => step_of_no_inputs, fun _ _ _ hl hi he hw hr =>
    ⟨_, step_idle hl hi he hw hr, ⟨rfl, rfl, rfl⟩, rfl, rfl, hr, rfl⟩⟩

end Sys2Proof.Machine
end

section
/-! Group 70_reset_and_hazards.md: the build parameters. -/

namespace Sys2Proof.Machine

/-- No command word, legal or not, changes a build parameter. -/
theorem perform_cfg {w : CommandWord} {s t : State} (h : perform w s = .next t) : t.cfg = s.cfg := by
  cases hd : decode w with
  | error e =>
    obtain rfl : raiseError .illegal s = t := by simpa [perform_of_illegal hd] using h
    exact raiseError_cfg ..
  | ok i => exact exec_cfg (perform_of_decode hd s ▸ h)

/-- Settles O16: an edge resets, delivers, performs a command word, or transfers nothing, and none of these writes the configuration. -/
theorem noStepChangesTheConfiguration : Obligations.NoStepChangesTheConfiguration := by
  intro s t h
  obtain ⟨-, ⟨-, rfl⟩ | ⟨e, rest, -, hedge⟩⟩ := step_cases h
  · rfl
  · obtain ⟨-, rfl⟩ | ⟨-, -, -, rfl⟩ | ⟨-, -, w, -, hp⟩ | ⟨-, rfl⟩ := hedge
    · exact resetBlock_cfg _
    · exact deliver_cfg _
    · exact (perform_cfg hp :)
    · rfl

end Sys2Proof.Machine
end
